-- ==== Sys2Proof/Word.lean ====
section
/-! DEFINITION. The word types of DHT1W: all registers are 32 bits, timing registers 16, frame bytes 8,
window offsets 8 (00_scope.md R6). -/

namespace Sys2Proof

/-- A frame byte. -/
abbrev Byte := BitVec 8

/-- A timing register, or one half of a bus word. -/
abbrev Half := BitVec 16

/-- A bus data word (20_memory.md R61). -/
abbrev Word := BitVec 32

/-- An offset in the 256-byte register window (20_memory.md R60). -/
abbrev Offset := BitVec 8

end Sys2Proof
end

