-- ==== Sys2Proof/Config.lean ====
section
/-! DEFINITION. What an implementation of DHT1W fixes (the parameters of 00_scope.md R6) and the model's one free
value, the line level (10_state.md R22). None of the opaque constants has a body: no proof can see a value. -/

namespace Sys2Proof

/-- VARIANT, the sensor variant (00_scope.md R6). -/
inductive Variant where
  /-- VARIANT = 0, the lower-resolution variant. -/
  | v0
  /-- VARIANT = 1, the higher-resolution variant. -/
  | v1
  deriving DecidableEq, Repr, Inhabited

/-- The parameters of one block instance (00_scope.md R6), fixed for its life. The latencies' range 1..255 is
`Params.wf`. -/
structure Params where
  /-- VARIANT. -/
  variant : Variant
  /-- TICK_DIV_RESET, the reset value of TICK_DIV. -/
  tickDivReset : Half
  /-- DP_LAT_P, cycles from acceptance of DP_PRECISE to its completion. -/
  dpLatP : Byte
  /-- DP_LAT_F, cycles from acceptance of DP_FAST to its completion. -/
  dpLatF : Byte
  /-- BASE, the platform address of offset 0x00 (the block sees offsets only). -/
  base : Nat
  deriving DecidableEq, Repr, Inhabited

/-- The instance's VARIANT: OPEN (92_eei_decisions.md D7). -/
opaque Config.variant : Variant

/-- The instance's TICK_DIV_RESET: OPEN (92_eei_decisions.md D4). -/
opaque Config.tickDivReset : Half

/-- DP_LAT_P less one: OPEN (92_eei_decisions.md D36), so that the latency is any of 1..255. -/
opaque Config.dpLatPPred : Fin 255

/-- DP_LAT_F less one: OPEN (92_eei_decisions.md D36), so that the latency is any of 1..255. -/
opaque Config.dpLatFPred : Fin 255

/-- The instance's BASE: OPEN (92_eei_decisions.md D45). -/
opaque Config.base : Nat

/-- `line_i` in the clock cycle with a given index, wherever the state scripts no sample: a FREE VALUE under no law
(92_eei_decisions.md D6; 93_implementation_defined.md I13). -/
opaque Config.freeLine : Nat → Bool

/-- The latency k + 1, for the k of a latency constant. -/
def Config.latency (k : Fin 255) : Byte := BitVec.ofNat 8 (k.val + 1)

/-- The instance's parameters, every one of them open. -/
def Config.params : Params where
  variant := Config.variant
  tickDivReset := Config.tickDivReset
  dpLatP := Config.latency Config.dpLatPPred
  dpLatF := Config.latency Config.dpLatFPred
  base := Config.base

end Sys2Proof
end

