-- ==== Sys2Proof/Syntax.lean ====
section
/-! DEFINITION. The syntax of DHT1W: the commands (`Instr`, one constructor per row of opcode_table.json), the
named registers, the bus operations, and the host-program notation of 30_encoding.md R86 and R87. -/

namespace Sys2Proof

/-- The commands a host writes to CMD (30_encoding.md R81). No command carries an operand in its word (R84). -/
inductive Instr where
  /-- NOP (40_commands.md R102). -/
  | nop
  /-- READ (40_commands.md R103). -/
  | read
  /-- DP_PRECISE (40_commands.md R106). -/
  | dpPrecise
  /-- DP_FAST (40_commands.md R107). -/
  | dpFast
  deriving DecidableEq, Repr

/-- The nine timing registers, offsets 0x14-0x34 (10_state.md R29-R37). -/
inductive TimingReg where
  | tickDiv | tStab | tStart | toPres | toSyncL | toSyncH | toBitL | tSample | toBitH
  deriving DecidableEq, Repr

/-- The host-addressable registers (10_state.md R24-R46). -/
inductive Reg where
  | id | cmd | status | intEn | intPend
  | timing (k : TimingReg)
  | rawW0 | rawW1 | validW0 | validW1 | reading | dpIn | dpOut | usCount | dbg
  deriving DecidableEq, Repr

/-- A bus operation of one cycle: only 32-bit reads and writes exist (20_memory.md R61, R62). -/
inductive HostOp where
  /-- No operation. -/
  | idle
  /-- `RD(off)`. -/
  | rd (off : Offset)
  /-- `WR(off, data)`. -/
  | wr (off : Offset) (data : Word)
  deriving DecidableEq, Repr

/-- One line of a host program (30_encoding.md R86, R87). -/
inductive HostCmd where
  /-- `RD off`: one cycle. -/
  | rd (off : Offset)
  /-- `WR off, data`: one cycle. -/
  | wr (off : Offset) (data : Word)
  /-- `IDLE n`: n cycles with no host operation. -/
  | idle (n : Nat)
  /-- `POLL off, mask, val`: `RD off` once per cycle until (data AND mask) = val. -/
  | poll (off : Offset) (mask val : Word)
  /-- An access of `bytes` bytes narrower than a word. The bus has none (20_memory.md R62): the model refuses it
  by name (93_implementation_defined.md I6). -/
  | narrow (off : Offset) (bytes : Nat)
  deriving DecidableEq, Repr

end Sys2Proof
end

