-- ==== Sys2Proof/Machine/State.lean ====
section
/-! DEFINITION. The state of DHT1W (10_state.md), grouped by unit, with the inputs the step reads as plain data, the
reasons a step can stop, and the state after reset (10_state.md R54). -/

namespace Sys2Proof.Machine

/-- PHASE, the frame decoder's state (10_state.md R21). The encodings 10-15 are never entered and are left out. -/
inductive Phase where
  | idle | check | stab | start | wPres | wSyncL | wSyncH | bLow | bSample | bHigh
  deriving DecidableEq, Repr

/-- LAST_CODE (60_exceptions.md R230). The codes 8-14 are never produced and are left out (R232). -/
inductive Code where
  | success | notDetected | syncTimeout | overlyFast | dataTimeout | badChecksum | badStart | busBusy | none
  deriving DecidableEq, Repr

/-- HOST_ERR_CAUSE (60_exceptions.md R237). The causes 4-7 are never produced and are left out. -/
inductive Cause where
  | none | busy | illegal | locked
  deriving DecidableEq, Repr

/-- The dew-point mode: 0 = DP_PRECISE, 1 = DP_FAST (40_commands.md R105; 10_state.md R44). -/
inductive DpMode where
  | precise | fast
  deriving DecidableEq, Repr

/-- A frame's five bytes in capture order (20_memory.md R70). -/
structure Frame where
  b0 : Byte
  b1 : Byte
  b2 : Byte
  b3 : Byte
  b4 : Byte
  deriving DecidableEq, Repr

/-- The all-zero frame. -/
def Frame.zero : Frame := ⟨0, 0, 0, 0, 0⟩

/-- The timing registers (10_state.md R29-R37), locked while RD_BUSY. -/
structure Timing where
  tickDiv : Half
  tStab : Half
  tStart : Half
  toPres : Half
  toSyncL : Half
  toSyncH : Half
  toBitL : Half
  tSample : Half
  toBitH : Half
  deriving DecidableEq, Repr

/-- The read unit: frame decoder, validator snapshot and completion record (10_state.md R21, R26, R38-R41, R48). -/
structure ReadUnit where
  /-- PHASE. -/
  phase : Phase
  /-- CNT, ticks within the current phase. -/
  cnt : Half
  /-- BITCNT, bits captured in the current transaction. -/
  bitcnt : BitVec 6
  /-- SHIFT, the BitBuffer. -/
  shift : BitVec 40
  /-- RAW, the frame of the latest transaction. -/
  raw : Frame
  /-- RAW_FULL. -/
  rawFull : Bool
  /-- VALID, the last frame that passed the checksum. -/
  valid : Frame
  /-- HAVE_VALID. -/
  haveValid : Bool
  /-- LAST_CODE. -/
  lastCode : Code
  /-- LAST_PHASE. -/
  lastPhase : Phase
  /-- LAST_BITS. -/
  lastBits : BitVec 6
  deriving DecidableEq, Repr

/-- The dew-point unit (10_state.md R43, R44, R50). -/
structure DpUnit where
  /-- DP_IN. -/
  dpIn : Word
  /-- DP_BUSY. -/
  busy : Bool
  /-- DP_CNT, cycles remaining. -/
  cnt : Byte
  /-- DP_MODE_L, the mode of the accepted command. -/
  modeL : DpMode
  /-- DP_OP, the copy of DP_IN taken at acceptance. -/
  op : Word
  /-- DP_OUT.TD10. -/
  td10 : Half
  /-- DP_OUT.DOMAIN. -/
  domain : Bool
  /-- DP_OUT.RANGE. -/
  range : Bool
  /-- DP_OUT.SAT. -/
  sat : Bool
  /-- DP_OUT.MODE. -/
  mode : DpMode
  /-- DP_OUT.DONE. -/
  done : Bool
  deriving DecidableEq, Repr

/-- The pulse timer (10_state.md R45, R49). -/
structure PulseTimer where
  /-- PRESC, the prescaler count. -/
  presc : Half
  /-- US_COUNT, ticks since reset. -/
  usCount : Word
  deriving DecidableEq, Repr

/-- The host interface's registers (10_state.md R26-R28). -/
structure HostIf where
  /-- INT_EN[2:0]. -/
  intEn : BitVec 3
  /-- INT_PEND[2:0]. -/
  intPend : BitVec 3
  /-- HOST_ERR_CAUSE. -/
  cause : Cause
  deriving DecidableEq, Repr

/-- The response of a bus operation (20_memory.md R61). -/
inductive Resp where
  | ok | err
  deriving DecidableEq, Repr

/-- What the bus returned in a cycle (20_memory.md R61). -/
inductive BusOut where
  /-- No host operation. -/
  | none
  /-- A read: response and data. -/
  | rd (resp : Resp) (data : Word)
  /-- A write: response. -/
  | wr (resp : Resp)
  deriving DecidableEq, Repr

/-- The host's record of one ERR response (93_implementation_defined.md I7). -/
structure BusFault where
  /-- The cycle of the access, by `Env.clk`. -/
  cycle : Nat
  /-- The access that got ERR. -/
  op : HostOp
  deriving DecidableEq, Repr

/-- The inputs the coming cycles bring, and what the latest cycle returned. These are the MODEL's own fields
(00_scope.md R7, R8; assumption log 2-6): the spec makes them inputs and outputs of a cycle, not registers. -/
structure Env where
  /-- The index of the coming clock cycle; no reset of the block clears it. -/
  clk : Nat
  /-- Whether `rst` has been asserted since power-on (70_reset_and_hazards.md R270). -/
  wasReset : Bool
  /-- What remains of the host's program; past its end the host performs no operation. -/
  program : List HostCmd
  /-- The coming samples of `line_i`; past its end each sample is free. -/
  lineIn : List Bool
  /-- The coming samples of `rst`; past its end `rst` is 0. -/
  rstIn : List Bool
  /-- The response to the latest cycle's host operation. -/
  busOut : BusOut
  /-- The host's fault record: every ERR response so far, latest first (93_implementation_defined.md I7). No cycle drops
  an entry, and a reset of the block, which is not the host's, leaves it. -/
  busFaults : List BusFault
  deriving DecidableEq, Repr

/-- The state of DHT1W. -/
structure State where
  /-- The instance's parameters (00_scope.md R6): constant, no step writes them. -/
  params : Params
  /-- TICK_DIV and the other timing registers. -/
  timing : Timing
  /-- The read unit. -/
  rd : ReadUnit
  /-- The dew-point unit. -/
  dp : DpUnit
  /-- The pulse timer. -/
  timer : PulseTimer
  /-- INT_EN, INT_PEND and HOST_ERR_CAUSE. -/
  hif : HostIf
  /-- LINE_Q (10_state.md R51). -/
  lineQ : Bool
  /-- Inputs to come and the latest bus response (the model's own). -/
  env : Env
  deriving DecidableEq, Repr

/-- Why the machine stops with a fault. -/
inductive Fault where
  /-- Raised by the step when `rst` has never been asserted and is 0 now: "Before that the state is not defined, and no
  rule applies" (70_reset_and_hazards.md R270; 93_implementation_defined.md I20). Safe: it allows no run. -/
  | beforeFirstReset
  deriving DecidableEq, Repr

/-- Why the model gives a step no meaning. -/
inductive Refusal where
  /-- An instruction without a meaning yet, by its mnemonic in the opcode table. No arm of `exec` raises it. Safe. -/
  | notModelled (mnemonic : String)
  /-- Raised by the step when the host program makes an access narrower than 32 bits: what it does "is the platform's,
  not the block's" (20_memory.md R62; 93_implementation_defined.md I6). Safe: it allows no run. -/
  | narrowAccess
  deriving DecidableEq, Repr

/-- The reset value of T_START (10_state.md R31, R54). -/
def resetTStart : Variant → Half
  | .v0 => 18000
  | .v1 => 2000

/-- The timing registers' reset values (10_state.md R54). -/
def Timing.resetWith (p : Params) : Timing where
  tickDiv := p.tickDivReset
  tStab := 1000
  tStart := resetTStart p.variant
  toPres := 40
  toSyncL := 100
  toSyncH := 100
  toBitL := 75
  tSample := 40
  toBitH := 50

/-- The read unit's reset values (10_state.md R54). -/
def ReadUnit.atReset : ReadUnit where
  phase := .idle
  cnt := 0
  bitcnt := 0
  shift := 0
  raw := Frame.zero
  rawFull := false
  valid := Frame.zero
  haveValid := false
  lastCode := .none
  lastPhase := .idle
  lastBits := 0

/-- The dew-point unit's reset values (10_state.md R54). -/
def DpUnit.atReset : DpUnit where
  dpIn := 0
  busy := false
  cnt := 0
  modeL := .precise
  op := 0
  td10 := 0
  domain := false
  range := false
  sat := false
  mode := .precise
  done := false

/-- The environment the model starts with: nothing scripted, the first cycle after reset. -/
def Env.atReset : Env where
  clk := 0
  wasReset := true
  program := []
  lineIn := []
  rstIn := []
  busOut := .none
  busFaults := []

/-- The state right after reset of an instance with the parameters `p` (10_state.md R54). -/
def State.resetWith (p : Params) : State where
  params := p
  timing := Timing.resetWith p
  rd := ReadUnit.atReset
  dp := DpUnit.atReset
  timer := { presc := 0, usCount := 0 }
  hif := { intEn := 0, intPend := 0, cause := .none }
  lineQ := true
  env := Env.atReset

/-- The machine right after reset, with every parameter open (10_state.md R54; 70_reset_and_hazards.md R270). -/
def State.reset : State := State.resetWith Config.params

end Sys2Proof.Machine
end

