-- ==== Sys2Proof/Machine/Flags.lean ====
section
/-! DEFINITION. The block's flags (10_state.md R52): busy flags, the INT_PEND bits with write-one-to-clear and
same-cycle set, the interrupt output, and the RANGE flag of the dew-point unit. -/

namespace Sys2Proof.Machine

/-- STATUS.RD_BUSY: 1 while PHASE ≠ IDLE (10_state.md R26). -/
def rdBusy (r : ReadUnit) : Bool := r.phase ≠ .idle

/-- INT_PEND[0], RD_DONE (10_state.md R28). -/
def rdDoneBit : BitVec 3 := 0b001

/-- INT_PEND[1], DP_DONE (10_state.md R28). -/
def dpDoneBit : BitVec 3 := 0b010

/-- INT_PEND[2], HOST_ERR (10_state.md R28). -/
def hostErrBit : BitVec 3 := 0b100

/-- The set of sources the units raise in a cycle (20_memory.md R66 step 5). -/
def doneSet (rdDone dpDone : Bool) : BitVec 3 :=
  (if rdDone then rdDoneBit else 0) ||| (if dpDone then dpDoneBit else 0)

/-- Sets pending bits: a source sets its bit whatever INT_EN is (60_exceptions.md R241). -/
def HostIf.raise (h : HostIf) (set : BitVec 3) : HostIf := { h with intPend := h.intPend ||| set }

/-- Clears the pending bits a host writes 1 to (20_memory.md R68). -/
def HostIf.clear (h : HostIf) (w1c : BitVec 3) : HostIf := { h with intPend := h.intPend &&& ~~~w1c }

/-- The interrupt output (60_exceptions.md R240). -/
def irq (h : HostIf) : Bool := h.intPend &&& h.intEn ≠ 0

/-- RANGE: the operands are outside the rated range (44_dewpoint.md R210; 00_scope.md R15). -/
def outOfRange (t10 : Int) (h10 : Nat) : Bool := !(0 ≤ t10 && t10 ≤ 500 && 200 ≤ h10 && h10 ≤ 900)

end Sys2Proof.Machine
end

