-- ==== Sys2Proof/Machine/Operands.lean ====
section
/-! DEFINITION. Operands and encodings: the dew-point operands in DP_OP, the timing registers by name, the register at
an offset, and the numeric encodings of the model's enumerated registers. -/

namespace Sys2Proof.Machine

/-- `s16(v)` (00_scope.md R10). -/
def s16 (v : Half) : Int := v.toInt

/-- `u16(v)` (00_scope.md R10). -/
def u16 (v : Half) : Nat := v.toNat

/-- Storing a signed integer to a 16-bit field: x mod 2^16 (00_scope.md R10). -/
def toHalf (x : Int) : Half := BitVec.ofInt 16 x

/-- T10 = s16(DP_OP[15:0]) (30_encoding.md R84). -/
def opT10 (w : Word) : Int := s16 (w.extractLsb' 0 16)

/-- H10 = u16(DP_OP[31:16]) (30_encoding.md R84). -/
def opH10 (w : Word) : Nat := u16 (w.extractLsb' 16 16)

/-- The low half of a data word: what a timing register stores of a write (20_memory.md R65). -/
def lowHalf (w : Word) : Half := w.extractLsb' 0 16

/-- data[2:0]: what INT_EN and INT_PEND take of a write (20_memory.md R65). -/
def lowBits3 (w : Word) : BitVec 3 := w.extractLsb' 0 3

/-- A 16-bit register read as a bus word: the bits above it read 0 (10_state.md section 2). -/
def wordOfHalf (h : Half) : Word := (0 : BitVec 16) ++ h

/-- A 3-bit register read as a bus word. -/
def wordOfBits3 (b : BitVec 3) : Word := (0 : BitVec 29) ++ b

/-- A byte read as a bus word. -/
def wordOfByte (b : Byte) : Word := (0 : BitVec 24) ++ b

/-- A timing register's value. -/
def Timing.get (t : Timing) : TimingReg → Half
  | .tickDiv => t.tickDiv
  | .tStab => t.tStab
  | .tStart => t.tStart
  | .toPres => t.toPres
  | .toSyncL => t.toSyncL
  | .toSyncH => t.toSyncH
  | .toBitL => t.toBitL
  | .tSample => t.tSample
  | .toBitH => t.toBitH

/-- Writing a timing register. -/
def Timing.set (t : Timing) (v : Half) : TimingReg → Timing
  | .tickDiv => { t with tickDiv := v }
  | .tStab => { t with tStab := v }
  | .tStart => { t with tStart := v }
  | .toPres => { t with toPres := v }
  | .toSyncL => { t with toSyncL := v }
  | .toSyncH => { t with toSyncH := v }
  | .toBitL => { t with toBitL := v }
  | .tSample => { t with tSample := v }
  | .toBitH => { t with toBitH := v }

/-- Whether an access is aligned: off[1:0] = 0 (20_memory.md R63). -/
def aligned (off : Offset) : Bool := off.extractLsb' 0 2 = 0

/-- The register at an offset (10_state.md R24-R46); `none` at a reserved offset (R47) and off the word grid. -/
def regAt (off : Offset) : Option Reg :=
  match off.toNat with
  | 0x00 => some .id
  | 0x04 => some .cmd
  | 0x08 => some .status
  | 0x0C => some .intEn
  | 0x10 => some .intPend
  | 0x14 => some (.timing .tickDiv)
  | 0x18 => some (.timing .tStab)
  | 0x1C => some (.timing .tStart)
  | 0x20 => some (.timing .toPres)
  | 0x24 => some (.timing .toSyncL)
  | 0x28 => some (.timing .toSyncH)
  | 0x2C => some (.timing .toBitL)
  | 0x30 => some (.timing .tSample)
  | 0x34 => some (.timing .toBitH)
  | 0x38 => some .rawW0
  | 0x3C => some .rawW1
  | 0x40 => some .validW0
  | 0x44 => some .validW1
  | 0x48 => some .reading
  | 0x4C => some .dpIn
  | 0x50 => some .dpOut
  | 0x54 => some .usCount
  | 0x58 => some .dbg
  | _ => none

/-- A register's offset (10_state.md R24-R46). -/
def offsetOf : Reg → Offset
  | .id => 0x00
  | .cmd => 0x04
  | .status => 0x08
  | .intEn => 0x0C
  | .intPend => 0x10
  | .timing .tickDiv => 0x14
  | .timing .tStab => 0x18
  | .timing .tStart => 0x1C
  | .timing .toPres => 0x20
  | .timing .toSyncL => 0x24
  | .timing .toSyncH => 0x28
  | .timing .toBitL => 0x2C
  | .timing .tSample => 0x30
  | .timing .toBitH => 0x34
  | .rawW0 => 0x38
  | .rawW1 => 0x3C
  | .validW0 => 0x40
  | .validW1 => 0x44
  | .reading => 0x48
  | .dpIn => 0x4C
  | .dpOut => 0x50
  | .usCount => 0x54
  | .dbg => 0x58

/-- The 4-bit encoding of PHASE (10_state.md R21). -/
def phaseBits : Phase → BitVec 4
  | .idle => 0
  | .check => 1
  | .stab => 2
  | .start => 3
  | .wPres => 4
  | .wSyncL => 5
  | .wSyncH => 6
  | .bLow => 7
  | .bSample => 8
  | .bHigh => 9

/-- The 4-bit encoding of LAST_CODE (60_exceptions.md R230). -/
def codeBits : Code → BitVec 4
  | .success => 0
  | .notDetected => 1
  | .syncTimeout => 2
  | .overlyFast => 3
  | .dataTimeout => 4
  | .badChecksum => 5
  | .badStart => 6
  | .busBusy => 7
  | .none => 15

/-- The 3-bit encoding of HOST_ERR_CAUSE (60_exceptions.md R237). -/
def causeBits : Cause → BitVec 3
  | .none => 0
  | .busy => 1
  | .illegal => 2
  | .locked => 3

/-- The encoding of DP_OUT.MODE (10_state.md R44). -/
def modeBit : DpMode → BitVec 1
  | .precise => 0
  | .fast => 1

/-- The encoding of VARIANT in ID[0] (10_state.md R24). -/
def variantBit : Variant → BitVec 1
  | .v0 => 0
  | .v1 => 1

end Sys2Proof.Machine
end

