-- ==== Sys2Proof/Machine/DewPoint.lean ====
section
/-! DEFINITION. The fixed-point dew-point calculator (44_dewpoint.md R191-R215) over unbounded integers (R207 allows
that), with the integer operations of 00_scope.md R11. -/

namespace Sys2Proof.Machine

/-- `msb(v)`, the index of the highest set bit (00_scope.md R11). -/
def msb (v : Nat) : Nat := v.log2

/-- `tdiv(n, d)`, division truncated toward zero (00_scope.md R11). -/
def tdiv (n d : Int) : Int := n.sign * d.sign * ((n.natAbs / d.natAbs : Nat) : Int)

/-- `rdiv(n, d)` for d > 0, division rounded to nearest with ties away from zero (00_scope.md R11). -/
def rdiv (n d : Int) : Int :=
  if 0 ≤ n then (2 * n + d) / (2 * d) else -((-2 * n + d) / (2 * d))

/-- A_Q = round(17.27 · 2^16) (44_dewpoint.md R191). -/
def aQ : Int := 1131807

/-- B10 = 2377, b in tenths (44_dewpoint.md R191). -/
def b10 : Int := 2377

/-- LN2_Q28 = round(ln 2 · 2^28) (44_dewpoint.md R191). -/
def ln2Q28 : Int := 186065279

/-- C_P (44_dewpoint.md R191). -/
def cP : Int := 10449882

/-- C_F (44_dewpoint.md R191). -/
def cF : Int := 10436608

/-- The squaring loop of `log2_precise_q20` with `k` result bits still to come (44_dewpoint.md R193). -/
def log2Loop : Nat → Nat → Nat → Nat
  | 0, _, r => r
  | k + 1, y, r =>
    if 2 ^ 32 ≤ (y * y) >>> 31 then log2Loop k ((y * y) >>> 31 >>> 1) (r + 2 ^ k)
    else log2Loop k ((y * y) >>> 31) r

/-- `log2_precise_q20` (44_dewpoint.md R193). -/
def log2PreciseQ20 (v : Nat) : Nat := log2Loop 20 (v <<< (31 - msb v)) (msb v <<< 20)

/-- `log2_fast_q20` (44_dewpoint.md R195). -/
def log2FastQ20 (v : Nat) : Nat := (msb v <<< 20) + (((v - 2 ^ msb v) <<< 20) >>> msb v)

/-- What a dew-point function answers (44_dewpoint.md R204). -/
structure DpResult where
  /-- TD10. -/
  td : Int
  /-- DOMAIN. -/
  domain : Bool
  /-- RANGE. -/
  range : Bool
  /-- SAT. -/
  sat : Bool
  deriving DecidableEq, Repr

/-- The natural logarithm of the humidity fraction in Q16, from log2(H10/1000) in Q20 (44_dewpoint.md R197). -/
def lnQ16 (l2 : Int) : Int := (l2 * ln2Q28) >>> 32

/-- The temperature term in Q16 (44_dewpoint.md R198). -/
def tempTerm (t10 : Int) : Int := tdiv (aQ * t10) (b10 + t10)

/-- Saturation of the rounded result to 16 bits (44_dewpoint.md R200, R209). -/
def saturate (q : Int) (range : Bool) : DpResult :=
  if 32767 < q then { td := 32767, domain := false, range := range, sat := true }
  else if q < -32768 then { td := -32768, domain := false, range := range, sat := true }
  else { td := q, domain := false, range := range, sat := false }

/-- The answer outside the formula's domain (44_dewpoint.md R208). -/
def outOfDomain (range : Bool) : DpResult := { td := 0, domain := true, range := range, sat := false }

/-- The result from γ in Q16 (44_dewpoint.md R199, R200, R208(c)). -/
def fromGamma (g : Int) (range : Bool) : DpResult :=
  if aQ - g ≤ 0 then outOfDomain range else saturate (rdiv (b10 * g) (aQ - g)) range

/-- γ in Q16 from log2(H10/1000) in Q20 and the temperature (44_dewpoint.md R199). -/
def gammaQ16 (l2 t10 : Int) : Int := lnQ16 l2 + tempTerm t10

/-- The dew point with a logarithm `log2` and its value `c` at 1000 (44_dewpoint.md R204, R205). -/
def dewPoint (log2 : Nat → Nat) (c : Int) (t10 : Int) (h10 : Nat) : DpResult :=
  if h10 = 0 ∨ b10 + t10 ≤ 0 then outOfDomain (outOfRange t10 h10)
  else fromGamma (gammaQ16 ((log2 h10 : Int) - c) t10) (outOfRange t10 h10)

/-- `precise_dp` (44_dewpoint.md R204). -/
def preciseDp (t10 : Int) (h10 : Nat) : DpResult := dewPoint log2PreciseQ20 cP t10 h10

/-- `fast_dp` (44_dewpoint.md R205). -/
def fastDp (t10 : Int) (h10 : Nat) : DpResult := dewPoint log2FastQ20 cF t10 h10

/-- The function of a mode applied to the operands in DP_OP (44_dewpoint.md R215). -/
def dpResult (m : DpMode) (op : Word) : DpResult :=
  match m with
  | .precise => preciseDp (opT10 op) (opH10 op)
  | .fast => fastDp (opT10 op) (opH10 op)

/-- The latency of a mode: DP_LAT_P or DP_LAT_F (40_commands.md R105; 00_scope.md R6). -/
def latencyOf (p : Params) : DpMode → Byte
  | .precise => p.dpLatP
  | .fast => p.dpLatF

/-- Dew-point acceptance (40_commands.md R105). -/
def DpUnit.accept (d : DpUnit) (m : DpMode) (latency : Byte) : DpUnit :=
  { d with busy := true, modeL := m, cnt := latency, op := d.dpIn }

/-- `complete_dp()` with DP_CNT already counted down (44_dewpoint.md R214, R215). -/
def completeDp (d : DpUnit) : DpUnit :=
  { d with
    busy := false
    td10 := toHalf (dpResult d.modeL d.op).td
    domain := (dpResult d.modeL d.op).domain
    range := (dpResult d.modeL d.op).range
    sat := (dpResult d.modeL d.op).sat
    mode := d.modeL
    done := true }

/-- One cycle of the busy dew-point unit (44_dewpoint.md R214), with whether it completed (hw_set.DP_DONE). -/
def dpStep (d : DpUnit) : DpUnit × Bool :=
  let d1 := { d with cnt := d.cnt - 1 }
  if d.cnt = 1 then (completeDp d1, true) else (d1, false)

end Sys2Proof.Machine
end

