-- ==== Sys2Proof/Machine/PulseTimer.lean ====
section
/-! DEFINITION. The pulse timer and the edge waiter: tick, PRESC, US_COUNT, `hold` and `wait_level`
(41_pulse_timer_edge_waiter.md R120-R124). -/

namespace Sys2Proof.Machine

/-- Whether a cycle is a tick: PRESC ≥ TICK_DIV (41_pulse_timer_edge_waiter.md R120). -/
def isTick (tm : Timing) (p : PulseTimer) : Bool := tm.tickDiv.toNat ≤ p.presc.toNat

/-- One cycle of the pulse timer (41_pulse_timer_edge_waiter.md R120, R121). -/
def timerStep (tick : Bool) (p : PulseTimer) : PulseTimer where
  presc := if tick then 0 else p.presc + 1
  usCount := if tick then p.usCount + 1 else p.usCount

/-- What `hold(N)` answers on a tick (41_pulse_timer_edge_waiter.md R123). -/
inductive HoldResult where
  | done | waiting
  deriving DecidableEq, Repr

/-- `hold(N)` on a tick with count CNT (41_pulse_timer_edge_waiter.md R123); the caller advances CNT while waiting. -/
def hold (n cnt : Half) : HoldResult := if n.toNat ≤ cnt.toNat + 1 then .done else .waiting

/-- What `wait_level(L, TO)` answers on a tick (41_pulse_timer_edge_waiter.md R124). -/
inductive WaitResult where
  | seen | timeout | waiting
  deriving DecidableEq, Repr

/-- `wait_level(L, TO)` on a tick with sample `line` and count CNT (41_pulse_timer_edge_waiter.md R124): the level is
tested first. -/
def waitLevel (level : Bool) (bound : Half) (line : Bool) (cnt : Half) : WaitResult :=
  if line = level then .seen
  else if bound.toNat ≤ cnt.toNat then .timeout
  else .waiting

end Sys2Proof.Machine
end

