-- ==== Sys2Proof/Machine/Validator.lean ====
section
/-! DEFINITION. The frame validator and the decoded reading (43_frame_validator.md R170-R177). -/

namespace Sys2Proof.Machine

/-- `checksum_ok` (43_frame_validator.md R170). -/
def checksumOk (f : Frame) : Bool :=
  (f.b0.toNat + f.b1.toNat + f.b2.toNat + f.b3.toNat) % 256 = f.b4.toNat

/-- HUM_X10 (43_frame_validator.md R175, R176). -/
def humX10 (v : Variant) (f : Frame) : Nat :=
  match v with
  | .v0 => f.b0.toNat * 10 + f.b1.toNat
  | .v1 => (f.b0 ++ f.b1).toNat

/-- The magnitude of variant 1's temperature (43_frame_validator.md R176). -/
def tempMag (f : Frame) : Nat := ((f.b2 &&& 0x7F) ++ f.b3).toNat

/-- TEMP_X10 (43_frame_validator.md R175, R176). -/
def tempX10 (v : Variant) (f : Frame) : Int :=
  match v with
  | .v0 => ((f.b2.toNat * 10 + f.b3.toNat : Nat) : Int)
  | .v1 => if f.b2.msb then -(tempMag f : Int) else (tempMag f : Int)

/-- READING = {TEMP_X10 mod 2^16, HUM_X10} of the VALID bytes (43_frame_validator.md R177). -/
def readingWord (v : Variant) (f : Frame) : Word := toHalf (tempX10 v f) ++ BitVec.ofNat 16 (humX10 v f)

/-- Frame bytes 0-3 as RAW_W0 and VALID_W0 show them (10_state.md R38, R40). -/
def frameW0 (f : Frame) : Word := f.b0 ++ f.b1 ++ f.b2 ++ f.b3

/-- Frame byte 4 as RAW_W1 and VALID_W1 show it (10_state.md R39, R41). -/
def frameW1 (f : Frame) : Word := wordOfByte f.b4

end Sys2Proof.Machine
end

