-- ==== Sys2Proof/Machine/FrameDecoder.lean ====
section
/-! DEFINITION. The frame decoder (42_frame_decoder.md R140-R153). A phase rule takes the timing registers, the read
unit before a tick and the tick's `line_i`, and answers the read unit after it and whether the transaction completed
(hw_set.RD_DONE). -/

namespace Sys2Proof.Machine

/-- The start of a transaction (40_commands.md R103). -/
def ReadUnit.accept (r : ReadUnit) : ReadUnit :=
  { r with phase := .check, cnt := 0, bitcnt := 0, shift := 0, raw := Frame.zero, rawFull := false }

/-- `complete(code)` (42_frame_decoder.md R141): the one operation that ends a transaction. -/
def complete (code : Code) (r : ReadUnit) : ReadUnit × Bool :=
  ({ r with phase := .idle, lastCode := code, lastPhase := r.phase, lastBits := r.bitcnt }, true)

/-- Entering a phase: PHASE <- p, CNT <- 0 (41_pulse_timer_edge_waiter.md R122). -/
def enter (p : Phase) (r : ReadUnit) : ReadUnit × Bool := ({ r with phase := p, cnt := 0 }, false)

/-- Staying in a phase: CNT <- CNT + 1 (41_pulse_timer_edge_waiter.md R123, R124). -/
def stay (r : ReadUnit) : ReadUnit × Bool := ({ r with cnt := r.cnt + 1 }, false)

/-- A phase that waits for a level and then enters the next phase, or completes with a code
(42_frame_decoder.md R146-R149, R154). -/
def waitThen (level : Bool) (bound : Half) (next : Phase) (code : Code) (r : ReadUnit) (line : Bool) : ReadUnit × Bool :=
  match waitLevel level bound line r.cnt with
  | .seen => enter next r
  | .timeout => complete code r
  | .waiting => stay r

/-- CHECK (42_frame_decoder.md R143). -/
def stepCheck (r : ReadUnit) (line : Bool) : ReadUnit × Bool :=
  if line then enter .stab r else complete .busBusy r

/-- STAB (42_frame_decoder.md R144). -/
def stepStab (tm : Timing) (r : ReadUnit) : ReadUnit × Bool :=
  match hold tm.tStab r.cnt with
  | .done => enter .start r
  | .waiting => stay r

/-- START (42_frame_decoder.md R145). -/
def stepStart (tm : Timing) (r : ReadUnit) (line : Bool) : ReadUnit × Bool :=
  match hold tm.tStart r.cnt with
  | .done => if line then complete .badStart r else enter .wPres r
  | .waiting => stay r

/-- W_PRES (42_frame_decoder.md R146). -/
def stepWPres (tm : Timing) (r : ReadUnit) (line : Bool) : ReadUnit × Bool :=
  waitThen false tm.toPres .wSyncL .notDetected r line

/-- W_SYNC_L (42_frame_decoder.md R147). -/
def stepWSyncL (tm : Timing) (r : ReadUnit) (line : Bool) : ReadUnit × Bool :=
  waitThen true tm.toSyncL .wSyncH .syncTimeout r line

/-- W_SYNC_H (42_frame_decoder.md R148). -/
def stepWSyncH (tm : Timing) (r : ReadUnit) (line : Bool) : ReadUnit × Bool :=
  waitThen false tm.toSyncH .bLow .overlyFast r line

/-- B_LOW (42_frame_decoder.md R149). -/
def stepBLow (tm : Timing) (r : ReadUnit) (line : Bool) : ReadUnit × Bool :=
  waitThen true tm.toBitL .bSample .dataTimeout r line

/-- {SHIFT[38:0], line_i} (42_frame_decoder.md R150). -/
def shiftIn (sh : BitVec 40) (line : Bool) : BitVec 40 := sh.extractLsb' 0 39 ++ BitVec.ofBool line

/-- B_SAMPLE (42_frame_decoder.md R150). -/
def stepBSample (tm : Timing) (r : ReadUnit) (line : Bool) : ReadUnit × Bool :=
  match hold tm.tSample r.cnt with
  | .done => enter .bHigh { r with shift := shiftIn r.shift line, bitcnt := r.bitcnt + 1 }
  | .waiting => stay r

/-- Pack: RAW[i] = SHIFT[39-8i : 32-8i] (42_frame_decoder.md R153). -/
def pack (sh : BitVec 40) : Frame where
  b0 := sh.extractLsb' 32 8
  b1 := sh.extractLsb' 24 8
  b2 := sh.extractLsb' 16 8
  b3 := sh.extractLsb' 8 8
  b4 := sh.extractLsb' 0 8

/-- Pack, validate and complete after the 40th bit (42_frame_decoder.md R152; 43_frame_validator.md R172, R173). -/
def finishFrame (r : ReadUnit) : ReadUnit × Bool :=
  let f := pack r.shift
  let r1 := { r with cnt := 0, raw := f, rawFull := true }
  if checksumOk f then complete .success { r1 with valid := f, haveValid := true }
  else complete .badChecksum r1

/-- B_HIGH (42_frame_decoder.md R152). -/
def stepBHigh (tm : Timing) (r : ReadUnit) (line : Bool) : ReadUnit × Bool :=
  match waitLevel false tm.toBitH line r.cnt with
  | .timeout => complete .dataTimeout r
  | .seen => if r.bitcnt.toNat < 40 then enter .bLow r else finishFrame r
  | .waiting => stay r

/-- One tick of the frame decoder (42_frame_decoder.md R142): the rule of the phase held in PHASE; in IDLE nothing. -/
def frameStep (tm : Timing) (r : ReadUnit) (line : Bool) : ReadUnit × Bool :=
  match r.phase with
  | .idle => (r, false)
  | .check => stepCheck r line
  | .stab => stepStab tm r
  | .start => stepStart tm r line
  | .wPres => stepWPres tm r line
  | .wSyncL => stepWSyncL tm r line
  | .wSyncH => stepWSyncH tm r line
  | .bLow => stepBLow tm r line
  | .bSample => stepBSample tm r line
  | .bHigh => stepBHigh tm r line

/-- The pad modes (10_state.md R22). -/
inductive PadMode where
  | inputPu | driveLow | driveHigh
  deriving DecidableEq, Repr

/-- The pad mode of each phase (10_state.md R21). -/
def padMode : Phase → PadMode
  | .stab => .driveHigh
  | .start => .driveLow
  | .idle | .check | .wPres | .wSyncL | .wSyncH | .bLow | .bSample | .bHigh => .inputPu

/-- DBG.PIN_MODE (10_state.md R23). -/
def padModeBits : PadMode → BitVec 2
  | .inputPu => 0
  | .driveLow => 1
  | .driveHigh => 2

/-- (line_oe, line_o, line_pu) of a pad mode (10_state.md R22). -/
def padOutputs : PadMode → Bool × Bool × Bool
  | .inputPu => (false, false, true)
  | .driveLow => (true, false, false)
  | .driveHigh => (true, true, false)

end Sys2Proof.Machine
end

