-- ==== Sys2Proof/Machine/Ops.lean ====
section
/-! DEFINITION. The named operations over the state: host errors (the block's one exception entry), the register view
and the register write. DHT1W has no trap mechanism and no return from one (60_exceptions.md R247, R248). -/

namespace Sys2Proof.Machine

/-- `raise HostError(cause)` (60_exceptions.md R236): records the cause and sets HOST_ERR; nothing else changes. -/
def hostError (cause : Cause) (s : State) : State :=
  { s with hif := { (s.hif.raise hostErrBit) with cause := cause } }

/-- STATUS (10_state.md R26). -/
def statusWord (s : State) : Word :=
  (0 : BitVec 11) ++ causeBits s.hif.cause ++ s.rd.lastBits ++ phaseBits s.rd.lastPhase ++ codeBits s.rd.lastCode ++
    BitVec.ofBool s.rd.rawFull ++ BitVec.ofBool s.rd.haveValid ++ BitVec.ofBool s.dp.busy ++ BitVec.ofBool (rdBusy s.rd)

/-- ID (10_state.md R24). -/
def idWord (v : Variant) : Word := (0x4454 : BitVec 16) ++ (0x01 : BitVec 8) ++ (0 : BitVec 7) ++ variantBit v

/-- DP_OUT (10_state.md R44). -/
def dpOutWord (d : DpUnit) : Word :=
  BitVec.ofBool d.busy ++ BitVec.ofBool d.done ++ (0 : BitVec 10) ++ modeBit d.mode ++ BitVec.ofBool d.sat ++
    BitVec.ofBool d.range ++ BitVec.ofBool d.domain ++ d.td10

/-- DBG (10_state.md R46). -/
def dbgWord (r : ReadUnit) (lineQ : Bool) : Word :=
  r.cnt ++ (0 : BitVec 3) ++ padModeBits (padMode r.phase) ++ BitVec.ofBool lineQ ++ r.bitcnt ++ phaseBits r.phase

/-- The view of a register (20_memory.md R64), by the field layout of its rule in 10_state.md. -/
def viewReg (s : State) : Reg → Word
  | .id => idWord s.params.variant
  | .cmd => 0
  | .status => statusWord s
  | .intEn => wordOfBits3 s.hif.intEn
  | .intPend => wordOfBits3 s.hif.intPend
  | .timing k => wordOfHalf (s.timing.get k)
  | .rawW0 => frameW0 s.rd.raw
  | .rawW1 => frameW1 s.rd.raw
  | .validW0 => frameW0 s.rd.valid
  | .validW1 => frameW1 s.rd.valid
  | .reading => readingWord s.params.variant s.rd.valid
  | .dpIn => s.dp.dpIn
  | .dpOut => dpOutWord s.dp
  | .usCount => s.timer.usCount
  | .dbg => dbgWord s.rd s.lineQ

/-- The data an aligned read returns: a register's view, 0 at a reserved offset (20_memory.md R64). -/
def view (s : State) (off : Offset) : Word :=
  match regAt off with
  | some r => viewReg s r
  | none => 0

/-- The bus response and data of a host operation, on the pre-state (20_memory.md R63-R65). -/
def busReply (s : State) : HostOp → BusOut
  | .idle => .none
  | .rd off => if aligned off then .rd .ok (view s off) else .rd .err 0
  | .wr off _ => if aligned off then .wr .ok else .wr .err

/-- The bus response while `rst` = 1: OK with read data 0 (70_reset_and_hazards.md R270). -/
def busReplyInReset : HostOp → BusOut
  | .idle => .none
  | .rd _ => .rd .ok 0
  | .wr _ _ => .wr .ok

/-- The read data of a bus reply; 0 where there is none. -/
def replyData : BusOut → Word
  | .none => 0
  | .rd _ data => data
  | .wr _ => 0

/-- A write to a timing register: refused while RD_BUSY = 1 (20_memory.md R65, R67). -/
def writeTiming (k : TimingReg) (data : Word) (s : State) : State :=
  if rdBusy s.rd then hostError .locked s else { s with timing := s.timing.set (lowHalf data) k }

/-- A write to DP_IN: refused while DP_BUSY = 1 (20_memory.md R65, R67). -/
def writeDpIn (data : Word) (s : State) : State :=
  if s.dp.busy then hostError .locked s else { s with dp := { s.dp with dpIn := data } }

/-- The write table of 20_memory.md R65 for every register but CMD, whose write is a command (40_commands.md R100). -/
def writeReg (s : State) (data : Word) : Reg → State
  | .intEn => { s with hif := { s.hif with intEn := lowBits3 data } }
  | .intPend => { s with hif := s.hif.clear (lowBits3 data) }
  | .timing k => writeTiming k data s
  | .dpIn => writeDpIn data s
  | .id | .cmd | .status | .rawW0 | .rawW1 | .validW0 | .validW1 | .reading | .dpOut | .usCount | .dbg => s

/-- READ on the pre-state: start a transaction, or HostError(BUSY) (40_commands.md R100, R103, R104). -/
def startRead (s : State) : State :=
  if rdBusy s.rd then hostError .busy s else { s with rd := s.rd.accept }

/-- A dew-point command on the pre-state: start a computation, or HostError(BUSY) (40_commands.md R100, R105). -/
def startDp (m : DpMode) (s : State) : State :=
  if s.dp.busy then hostError .busy s else { s with dp := s.dp.accept m (latencyOf s.params m) }

end Sys2Proof.Machine
end

