-- ==== Sys2Proof/Machine/Commands.lean ====
section
/-! DEFINITION. The meanings of the four commands (40_commands.md R100-R107): each is the effect of one CMD write,
decided on the pre-state of its cycle. What a command starts runs in the units, cycle by cycle (Machine/Cycle.lean). -/

namespace Sys2Proof.Machine

/-- NOP: no effect (40_commands.md R102). -/
def execNop (s : State) : Host.Outcome State Fault Refusal := .next s

/-- READ: start a read transaction (40_commands.md R103), or refuse it as BUSY (R104). -/
def execRead (s : State) : Host.Outcome State Fault Refusal := .next (startRead s)

/-- DP_PRECISE: start the precise computation (40_commands.md R106), or refuse it as BUSY (R105). -/
def execDpPrecise (s : State) : Host.Outcome State Fault Refusal := .next (startDp .precise s)

/-- DP_FAST: start the fast computation (40_commands.md R107), or refuse it as BUSY (R105). -/
def execDpFast (s : State) : Host.Outcome State Fault Refusal := .next (startDp .fast s)

end Sys2Proof.Machine
end

