-- ==== Sys2Proof/WellFormed.lean ====
section
/-! DEFINITION. Well-formedness checks: of commands, of parameters and of host programs. -/

namespace Sys2Proof

/-- A command has no operand (30_encoding.md R84), so each of the four is well formed. -/
def Instr.wf : Instr → Bool
  | .nop => true
  | .read => true
  | .dpPrecise => true
  | .dpFast => true

/-- The latencies lie in 1..255 (00_scope.md R6). The other parameters' types are their ranges. -/
abbrev Params.wf (p : Params) : Prop := p.dpLatP ≠ 0 ∧ p.dpLatF ≠ 0

/-- A host-program line the block can serve: every access is 32 bits wide (20_memory.md R62). -/
def HostCmd.wf : HostCmd → Bool
  | .rd _ => true
  | .wr _ _ => true
  | .idle _ => true
  | .poll _ _ _ => true
  | .narrow _ _ => false

/-- A POLL whose condition some data word can meet. One that cannot is a host program that waits for ever
(30_encoding.md R87; 60_exceptions.md R256): the block runs it, so this is no part of `wf`. -/
def HostCmd.canEnd : HostCmd → Bool
  | .poll _ mask val => val &&& mask == val
  | _ => true

end Sys2Proof
end

