-- ==== Sys2Proof/Decode.lean ====
section
/-! DEFINITION. Decoding of a CMD word (30_encoding.md R80-R83), total on all 2^32 words and rejecting by name,
and after it the encoder. -/

namespace Sys2Proof

/-- Why a CMD word is illegal (30_encoding.md R82). -/
inductive DecodeError where
  /-- RSV = w[31:4] is not zero. -/
  | reservedBits
  /-- OP = w[3:0] is one of 0x4..0xF. -/
  | reservedOpcode
  deriving DecidableEq, Repr

/-- The field OP of a CMD word (30_encoding.md R80). -/
def opField (w : Word) : BitVec 4 := w.extractLsb' 0 4

/-- The field RSV of a CMD word (30_encoding.md R80). -/
def rsvField (w : Word) : BitVec 28 := w.extractLsb' 4 28

/-- The decode function of 30_encoding.md R83. -/
def decode (w : Word) : Except DecodeError Instr :=
  if rsvField w ≠ 0 then .error .reservedBits
  else match (opField w).toNat with
    | 0 => .ok .nop
    | 1 => .ok .read
    | 2 => .ok .dpPrecise
    | 3 => .ok .dpFast
    | _ => .error .reservedOpcode

/-- OP of each command (30_encoding.md R81). -/
def opcode : Instr → BitVec 4
  | .nop => 0x0
  | .read => 0x1
  | .dpPrecise => 0x2
  | .dpFast => 0x3

/-- The command's word: RSV = 0 above OP (30_encoding.md R80, R81). -/
def encode (i : Instr) : Word := (0 : BitVec 28) ++ opcode i

/-- The command this decoder reads from the table's bits `w`: a command is one 32-bit bus word, so bit k of `w` is bit
k of CMD (20_memory.md R69), and bits above `nbits` are zero. -/
def decodeTableWord (nbits w : Nat) : Option Instr :=
  if nbits ≤ 32 ∧ w < 2 ^ nbits then (decode (BitVec.ofNat 32 w)).toOption else none

theorem decode_nop : decode 0x00000000#32 = .ok .nop := rfl
theorem decode_read : decode 0x00000001#32 = .ok .read := rfl
theorem decode_dpPrecise : decode 0x00000002#32 = .ok .dpPrecise := rfl
theorem decode_dpFast : decode 0x00000003#32 = .ok .dpFast := rfl

end Sys2Proof
end

