-- ==== Sys2Proof/Machine/HostProgram.lean ====
section
/-! DEFINITION. The host agent: which bus operation its program makes in a cycle, what remains of the program after
the cycle, and the pseudo-operations of 30_encoding.md R87. -/

namespace Sys2Proof.Machine

/-- The host's bus operation of the coming cycle (30_encoding.md R86, R87; 20_memory.md R61): no operation at the
program's end. `none`: the program's next line is a narrower access, which the bus does not have (20_memory.md R62). -/
def hostNext : List HostCmd → Option HostOp
  | [] => some .idle
  | .rd off :: _ => some (.rd off)
  | .wr off data :: _ => some (.wr off data)
  | .idle 0 :: rest => hostNext rest
  | .idle (_ + 1) :: _ => some .idle
  | .poll off _ _ :: _ => some (.rd off)
  | .narrow _ _ :: _ => none

/-- The program after a cycle whose operation returned `data`: POLL repeats its read until (data AND mask) = val. The
response is not read: after ERR, which the host keeps in its fault record (Machine/Cycle.lean `faultsAfter`), the
program goes on with its next line, and POLL compares the data 0. The spec leaves
what a host does after ERR to the host (60_exceptions.md R239; 93_implementation_defined.md I7), so that is the MODEL's
own choice, DESIGN CHOICE (assumption log 21). -/
def hostAfter (data : Word) : List HostCmd → List HostCmd
  | [] => []
  | .rd _ :: rest => rest
  | .wr _ _ :: rest => rest
  | .idle 0 :: rest => hostAfter data rest
  | .idle (n + 1) :: rest => if n = 0 then rest else .idle n :: rest
  | .poll off mask val :: rest => if data &&& mask = val then rest else .poll off mask val :: rest
  | .narrow _ _ :: rest => rest

/-- A CMD write of a command's word (30_encoding.md R80, R81). -/
def writeCmd (i : Instr) : HostCmd := .wr (offsetOf .cmd) (encode i)

/-- `READ_SENSOR`. -/
def readSensor : List HostCmd := [writeCmd .read]

/-- The word `(h10 << 16) OR (t10 mod 2^16)` (30_encoding.md R87). R87 reduces `t10` only, and an `h10` above 65535 gives
no 32-bit word: that such an `h10` is taken mod 2^16, its higher bits dropped, is the MODEL's own choice, DESIGN CHOICE
(assumption log 22). -/
def dpOperands (t10 : Int) (h10 : Nat) : Word := BitVec.ofNat 16 h10 ++ toHalf t10

/-- `DEWPOINT t10, h10`. -/
def dewpointProg (t10 : Int) (h10 : Nat) : List HostCmd :=
  [.wr (offsetOf .dpIn) (dpOperands t10 h10), writeCmd .dpPrecise]

/-- `DEWPOINT_FAST t10, h10`. -/
def dewpointFastProg (t10 : Int) (h10 : Nat) : List HostCmd :=
  [.wr (offsetOf .dpIn) (dpOperands t10 h10), writeCmd .dpFast]

/-- `NOP_CMD`. -/
def nopCmd : List HostCmd := [writeCmd .nop]

/-- `WAIT_RD`: POLL STATUS, 0x1, 0x0. -/
def waitRd : List HostCmd := [.poll (offsetOf .status) 0x1 0x0]

/-- `WAIT_DP`: POLL STATUS, 0x2, 0x0. -/
def waitDp : List HostCmd := [.poll (offsetOf .status) 0x2 0x0]

/-- `ACK mask`. -/
def ackProg (mask : Word) : List HostCmd := [.wr (offsetOf .intPend) mask]

/-- `SETT reg, v`. -/
def settProg (k : TimingReg) (v : Word) : List HostCmd := [.wr (offsetOf (.timing k)) v]

/-- `MemRead(BASE + off, 4)`: a read at a platform address (00_scope.md R12); `none` outside the window. -/
def memRead (p : Params) (addr : Nat) : Option HostCmd :=
  if p.base ≤ addr ∧ addr < p.base + 256 then some (.rd (BitVec.ofNat 8 (addr - p.base))) else none

/-- `MemWrite(BASE + off, 4, v)`: a write at a platform address (00_scope.md R12); `none` outside the window. -/
def memWrite (p : Params) (addr : Nat) (v : Word) : Option HostCmd :=
  if p.base ≤ addr ∧ addr < p.base + 256 then some (.wr (BitVec.ofNat 8 (addr - p.base)) v) else none

end Sys2Proof.Machine
end

