-- ==== Sys2Proof/Machine/Cycle.lean ====
section
/-! DEFINITION. One clock cycle of DHT1W (20_memory.md R66): the inputs of the cycle, the host operation on the
pre-state, the units, and reset (70_reset_and_hazards.md R270). -/

namespace Sys2Proof.Machine

/-- `line_i` of the coming cycle: the scripted sample, or a free one (10_state.md R22; 93_implementation_defined.md
I13). -/
def lineNow (e : Env) : Bool :=
  match e.lineIn with
  | [] => Config.freeLine e.clk
  | l :: _ => l

/-- `rst` of the coming cycle. -/
def rstNow (e : Env) : Bool :=
  match e.rstIn with
  | [] => false
  | b :: _ => b

/-- Whether the bus answered ERR (20_memory.md R61). -/
def isBusError : BusOut → Bool
  | .rd .err _ => true
  | .wr .err => true
  | .rd .ok _ => false
  | .wr .ok => false
  | .none => false

/-- The host's fault record after a cycle in which the bus returned `out`: an ERR response is kept with the access that
got it (93_implementation_defined.md I7; 60_exceptions.md R239). -/
def faultsAfter (e : Env) (out : BusOut) : List BusFault :=
  if isBusError out then { cycle := e.clk, op := (hostNext e.program).getD .idle } :: e.busFaults else e.busFaults

/-- The inputs after a cycle in which the bus returned `out`. -/
def nextEnv (e : Env) (out : BusOut) : Env where
  clk := e.clk + 1
  wasReset := e.wasReset
  program := hostAfter (replyData out) e.program
  lineIn := e.lineIn.tail
  rstIn := e.rstIn.tail
  busOut := out
  busFaults := faultsAfter e out

/-- A CMD write (40_commands.md R100): decode comes first, and an illegal word raises HostError(ILLEGAL). -/
def command (s : State) (w : Word) : Host.Outcome State Fault Refusal :=
  match decode w with
  | .ok i => exec i s
  | .error _ => .next (hostError .illegal s)

/-- The effect of a host operation on the pre-state (20_memory.md R63-R65; R66 step 2). -/
def hostStep (s : State) : HostOp → Host.Outcome State Fault Refusal
  | .idle => .next s
  | .rd _ => .next s
  | .wr off data =>
    if aligned off then
      match regAt off with
      | some .cmd => command s data
      | some r => .next (writeReg s data r)
      | none => .next s
    else .next s

/-- Whether the frame decoder steps in a cycle: on a tick with PHASE ≠ IDLE in the pre-state (20_memory.md R66
step 3). -/
def decoderSteps (s : State) : Bool := rdBusy s.rd && isTick s.timing s.timer

/-- The read unit after a cycle with pre-state `s` whose host operation gave `s1`, and whether a transaction completed
(20_memory.md R66 step 3). -/
def readAfter (s s1 : State) : ReadUnit × Bool :=
  if decoderSteps s then frameStep s.timing s.rd (lineNow s.env) else (s1.rd, false)

/-- The dew-point unit after a cycle, and whether a computation completed (20_memory.md R66 step 4). -/
def dpAfter (s s1 : State) : DpUnit × Bool :=
  if s.dp.busy then dpStep s.dp else (s1.dp, false)

/-- Steps 3-6 of 20_memory.md R66: the units advance from the pre-state `s`; `s1` is the pre-state with the host
operation's effect, and `out` the bus reply. -/
def advance (s s1 : State) (out : BusOut) : State :=
  { s1 with
    rd := (readAfter s s1).1
    dp := (dpAfter s s1).1
    hif := s1.hif.raise (doneSet (readAfter s s1).2 (dpAfter s s1).2)
    timer := timerStep (isTick s.timing s.timer) s.timer
    lineQ := lineNow s.env
    env := nextEnv s.env out }

/-- A cycle with `rst` = 1 (70_reset_and_hazards.md R270): every state element takes its reset value, the host
operation and `line_i` are ignored. -/
def resetCycle (s : State) : State :=
  { State.resetWith s.params with
    env := { nextEnv s.env (busReplyInReset ((hostNext s.env.program).getD .idle)) with wasReset := true } }

/-- The units advance after a host operation that gave a next state. -/
def thenAdvance (s : State) (out : BusOut) : Host.Outcome State Fault Refusal → Host.Outcome State Fault Refusal
  | .next s1 => .next (advance s s1 out)
  | .fault f => .fault f
  | .refused r => .refused r

/-- One clock cycle (00_scope.md R8; 20_memory.md R66; 70_reset_and_hazards.md R270). -/
def cycle (s : State) : Host.Outcome State Fault Refusal :=
  if rstNow s.env then .next (resetCycle s)
  else if s.env.wasReset then
    match hostNext s.env.program with
    | some op => thenAdvance s (busReply s op) (hostStep s op)
    | none => .refused .narrowAccess
  else .fault .beforeFirstReset

/-- The word with the table's bits `w`: bit k of the table's numbering is bit k of CMD (20_memory.md R69). -/
def cmdWordOf (nbits w : Nat) : Word := BitVec.ofNat 32 (w % 2 ^ nbits)

/-- `s` with a CMD write of the word placed as the host operation of the coming cycle, and `rst` low in it. -/
def placeCommand (s : State) (w : Word) : State :=
  { s with env := { s.env with
      wasReset := true
      program := .wr (offsetOf .cmd) w :: s.env.program
      rstIn := false :: s.env.rstIn.tail } }

end Sys2Proof.Machine
end

