-- ==== Sys2Proof/Machine/Step.lean ====
section
/-! DEFINITION. The step of DHT1W: one clock cycle (00_scope.md R8). -/

namespace Sys2Proof.Machine

/-- One step: one rising edge of `clk`. -/
def step (s : State) : Host.Outcome State Fault Refusal := cycle s

/-- `s` with the command word `w` as what the host writes to CMD in the very next cycle (assumption log 12). -/
def State.withFetchWord (s : State) (nbits w : Nat) : State := placeCommand s (cmdWordOf nbits w)

end Sys2Proof.Machine
end

