-- ==== Sys2Proof/Machine/Magnus.lean ====
section
/-! DEFINITION. The real-valued Magnus function that DP_PRECISE and DP_FAST approximate (44_dewpoint.md R190). It is the
reference of the claims about the two fixed-point functions; no cycle evaluates it (assumption log 16), so these
definitions over the reals are the model's only noncomputable ones. -/

namespace Sys2Proof.Machine

/-- The Magnus coefficient a = 17.27 (44_dewpoint.md R190). -/
noncomputable def magnusA : ℝ := 17.27

/-- The Magnus coefficient b = 237.7 in degrees Celsius (44_dewpoint.md R190). -/
noncomputable def magnusB : ℝ := 237.7

/-- γ(T, RH) = ln(RH / 100) + a·T / (b + T), T in degrees Celsius and RH in percent (44_dewpoint.md R190). -/
noncomputable def magnusGamma (t rh : ℝ) : ℝ := Real.log (rh / 100) + magnusA * t / (magnusB + t)

/-- Td = b·γ / (a − γ) in degrees Celsius (44_dewpoint.md R190). -/
noncomputable def magnusTd (t rh : ℝ) : ℝ := magnusB * magnusGamma t rh / (magnusA - magnusGamma t rh)

/-- 10·Td for T = T10/10 and RH = H10/10: what TD10 approximates as an integer (44_dewpoint.md R190, R192). -/
noncomputable def magnusTd10 (t10 : Int) (h10 : Nat) : ℝ := 10 * magnusTd (t10 / 10) (h10 / 10)

end Sys2Proof.Machine
end

