-- ==== Sys2Proof/Safety.lean ====
section
/-! DEFINITION. The terms claims use: the invariant (10_state.md R55 with the completion record of 60_exceptions.md
R231 and the count bounds of 70_reset_and_hazards.md R286), the host-error table (60_exceptions.md R237), ticks of the
frame decoder alone, and the bound of 70_reset_and_hazards.md R287. -/

namespace Sys2Proof.Machine

/-- BITCNT against PHASE (10_state.md R55(b); 42_frame_decoder.md R140). -/
def bitsFit (p : Phase) (bitcnt : Nat) : Bool :=
  match p with
  | .check | .stab | .start | .wPres | .wSyncL | .wSyncH => bitcnt == 0
  | .bLow | .bSample => bitcnt < 40
  | .bHigh => 1 ≤ bitcnt && bitcnt ≤ 40
  | .idle => bitcnt ≤ 40

/-- The completion record fits its code: which phase raises it, with how many bits (60_exceptions.md R230, R231). -/
def recordFits (c : Code) (p : Phase) (bits : Nat) : Bool :=
  match c with
  | .none => p == .idle && bits == 0
  | .success | .badChecksum => p == .bHigh && bits == 40
  | .notDetected => p == .wPres && bits == 0
  | .syncTimeout => p == .wSyncL && bits == 0
  | .overlyFast => p == .wSyncH && bits == 0
  | .dataTimeout => (p == .bLow && bits < 40) || (p == .bHigh && 1 ≤ bits && bits ≤ 40)
  | .badStart => p == .start && bits == 0
  | .busBusy => p == .check && bits == 0

/-- CNT against PHASE: a hold of N counts below max(N, 1), a wait up to its timeout (41_pulse_timer_edge_waiter.md
R123, R125). -/
def cntFits (tm : Timing) (p : Phase) (cnt : Nat) : Bool :=
  match p with
  | .idle => true
  | .check => cnt == 0
  | .stab => cnt < max tm.tStab.toNat 1
  | .start => cnt < max tm.tStart.toNat 1
  | .wPres => cnt ≤ tm.toPres.toNat
  | .wSyncL => cnt ≤ tm.toSyncL.toNat
  | .wSyncH => cnt ≤ tm.toSyncH.toNat
  | .bLow => cnt ≤ tm.toBitL.toNat
  | .bSample => cnt < max tm.tSample.toNat 1
  | .bHigh => cnt ≤ tm.toBitH.toNat

/-- The read unit's invariant (10_state.md R55(b)-(e)). -/
structure ReadInv (tm : Timing) (r : ReadUnit) : Prop where
  /-- BITCNT fits the phase. -/
  bits : bitsFit r.phase r.bitcnt.toNat = true
  /-- BITCNT = 40 in IDLE only after a completion from B_HIGH. -/
  bits40 : r.phase = .idle → r.bitcnt = 40 → r.lastPhase = .bHigh
  /-- CNT fits the phase. -/
  cnt : cntFits tm r.phase r.cnt.toNat = true
  /-- The completion record fits its code. -/
  record : recordFits r.lastCode r.lastPhase r.lastBits.toNat = true
  /-- HAVE_VALID = 0 implies that all VALID bytes are 0. -/
  noValid : r.haveValid = false → r.valid = Frame.zero
  /-- HAVE_VALID = 1 implies that VALID passes the checksum. -/
  validOk : r.haveValid = true → checksumOk r.valid = true
  /-- RAW_FULL = 0 implies that all RAW bytes are 0. -/
  noRaw : r.rawFull = false → r.raw = Frame.zero
  /-- RAW_FULL = 1 implies that RAW is the packed SHIFT of a transaction that captured 40 bits and was validated. -/
  rawFull : r.rawFull = true → r.phase = .idle ∧ r.bitcnt = 40 ∧ r.raw = pack r.shift ∧
    (r.lastCode = .success ∨ r.lastCode = .badChecksum)
  /-- A SUCCESS record implies HAVE_VALID. -/
  successValid : r.lastCode = .success → r.haveValid = true

/-- The dew-point unit's invariant (10_state.md R44, R55(f); 44_dewpoint.md R208, R209). -/
structure DpInv (d : DpUnit) : Prop where
  /-- DP_BUSY = 1 exactly when DP_CNT ≥ 1. -/
  busy : d.busy = true ↔ d.cnt ≠ 0
  /-- Before the first completion DP_OUT's result fields are 0. -/
  notDone : d.done = false →
    d.td10 = 0 ∧ d.domain = false ∧ d.range = false ∧ d.sat = false ∧ d.mode = .precise
  /-- DOMAIN = 1 implies TD10 = 0 and SAT = 0. -/
  domain : d.domain = true → d.td10 = 0 ∧ d.sat = false

/-- The machine's invariant. -/
structure Inv (s : State) : Prop where
  /-- The parameters lie in their ranges (00_scope.md R6). -/
  params : s.params.wf
  /-- The read unit's invariant. -/
  read : ReadInv s.timing s.rd
  /-- The dew-point unit's invariant. -/
  dp : DpInv s.dp

/-- What a host operation raises on the pre-state (60_exceptions.md R237, R245). -/
def hostErrorOf (s : State) : HostOp → Option Cause
  | .wr off data =>
    match regAt off with
    | some .cmd =>
      match decode data with
      | .error _ => some .illegal
      | .ok .nop => none
      | .ok .read => if rdBusy s.rd then some .busy else none
      | .ok .dpPrecise => if s.dp.busy then some .busy else none
      | .ok .dpFast => if s.dp.busy then some .busy else none
    | some (.timing _) => if rdBusy s.rd then some .locked else none
    | some .dpIn => if s.dp.busy then some .locked else none
    | _ => none
  | .rd _ => none
  | .idle => none

/-- The bits of INT_PEND a host operation clears (20_memory.md R65, R68). -/
def w1cMask : HostOp → BitVec 3
  | .wr off data => if regAt off = some .intPend then lowBits3 data else 0
  | .rd _ => 0
  | .idle => 0

/-- A cycle the block steps in: `rst` is low and has been asserted before. -/
def running (s : State) : Prop := rstNow s.env = false ∧ s.env.wasReset = true

/-- The state with the host operation of the coming cycle replaced by the line `c` of a host program. -/
def withHost (s : State) (c : HostCmd) : State := { s with env := { s.env with program := [c] } }

/-- The frame decoder alone over the ticks with the given samples, one rule a tick (42_frame_decoder.md R142). -/
def decoderTicks (tm : Timing) : ReadUnit → List Bool → ReadUnit
  | r, [] => r
  | r, l :: ls => decoderTicks tm (frameStep tm r l).1 ls

/-- The five waits of the frame decoder: target level, timeout register, next phase, failure code (42_frame_decoder.md
R154; B_HIGH's next phase is the one before bit 40). -/
def waitTable (tm : Timing) : Phase → Option (Bool × Half × Phase × Code)
  | .wPres => some (false, tm.toPres, .wSyncL, .notDetected)
  | .wSyncL => some (true, tm.toSyncL, .wSyncH, .syncTimeout)
  | .wSyncH => some (false, tm.toSyncH, .bLow, .overlyFast)
  | .bLow => some (true, tm.toBitL, .bSample, .dataTimeout)
  | .bHigh => some (false, tm.toBitH, .bLow, .dataTimeout)
  | .idle | .check | .stab | .start | .bSample => none

/-- D = max(T_SAMPLE, 1), the ticks from a bit's observed rising edge to its sample (42_frame_decoder.md R151). -/
def sampleDelay (tm : Timing) : Nat := max tm.tSample.toNat 1

/-- The samples of one bit from the tick after B_LOW is entered: `low` low polls, a high pulse of `w` polls, low up to
the sample tick where the pulse is shorter, and the low poll that ends B_HIGH (42_frame_decoder.md R149-R152). -/
def bitWave (tm : Timing) (low w : Nat) : List Bool :=
  List.replicate low false ++ (List.replicate w true ++ (List.replicate (sampleDelay tm + 1 - w) false ++ [false]))

/-- Pulse widths the frame decoder accepts (42_frame_decoder.md R155): the low phase ends within TO_BIT_L + 1 polls, the
high phase within TO_BIT_H + 1 polls of the sample. -/
def acceptedPulse (tm : Timing) (low w : Nat) : Prop :=
  low ≤ tm.toBitL.toNat ∧ 1 ≤ w ∧ w ≤ sampleDelay tm + 1 + tm.toBitH.toNat

/-- The phase order of 42_frame_decoder.md R140, with staying and failing (R141). -/
def mayFollow : Phase → List Phase
  | .idle => [.idle, .check]
  | .check => [.check, .stab, .idle]
  | .stab => [.stab, .start]
  | .start => [.start, .wPres, .idle]
  | .wPres => [.wPres, .wSyncL, .idle]
  | .wSyncL => [.wSyncL, .wSyncH, .idle]
  | .wSyncH => [.wSyncH, .bLow, .idle]
  | .bLow => [.bLow, .bSample, .idle]
  | .bSample => [.bSample, .bHigh]
  | .bHigh => [.bHigh, .bLow, .idle]

/-- Whether a transaction completes in a cycle that leads from `s` to `t`. -/
def readCompletes (s t : State) : Bool := rdBusy s.rd && !rdBusy t.rd

/-- Whether a dew-point computation completes in a cycle from `s` (44_dewpoint.md R214). -/
def dpCompletes (s : State) : Bool := s.dp.busy && s.dp.cnt == 1

/-- The source that sets bit k of INT_PEND in a cycle from `s` to `t` with host operation `op` (60_exceptions.md R241). -/
def pendSet (s t : State) (op : HostOp) (k : Nat) : Bool :=
  match k with
  | 0 => readCompletes s t
  | 1 => dpCompletes s
  | 2 => (hostErrorOf s op).isSome
  | _ => false

/-- No `rst` is to come. -/
def noReset (s : State) : Prop := ∀ b ∈ s.env.rstIn, b = false

/-- The host makes only accesses the bus has. -/
def hostOk (s : State) : Prop := ∀ c ∈ s.env.program, c.wf = true

/-- N_max of 70_reset_and_hazards.md R287, in ticks. -/
def nMax (tm : Timing) : Nat :=
  1 + max tm.tStab.toNat 1 + max tm.tStart.toNat 1 + (tm.toPres.toNat + 1) + (tm.toSyncL.toNat + 1) +
    (tm.toSyncH.toNat + 1) + 40 * ((tm.toBitL.toNat + 1) + max tm.tSample.toNat 1 + (tm.toBitH.toNat + 1))

/-- Byte i of a frame (20_memory.md R70). -/
def Frame.byte (f : Frame) (i : Fin 5) : Byte :=
  match i with
  | 0 => f.b0
  | 1 => f.b1
  | 2 => f.b2
  | 3 => f.b3
  | 4 => f.b4

/-- The frame with byte i replaced. -/
def Frame.withByte (f : Frame) (i : Fin 5) (v : Byte) : Frame :=
  match i with
  | 0 => { f with b0 := v }
  | 1 => { f with b1 := v }
  | 2 => { f with b2 := v }
  | 3 => { f with b3 := v }
  | 4 => { f with b4 := v }

end Sys2Proof.Machine
end

