-- ==== Sys2Proof/Certificates/Slice0/Obligations.lean ====
section
/-! DEFINITION. The statements about the model of DHT1W, each an obligation for the provers; the rule of spec/ it
formalises stands in its docstring. -/

open Sys2Proof Sys2Proof.Machine

/-! ## Encoding -/

/-- 30_encoding.md R83: the decode function, by RSV = w[31:4] and OP = w[3:0]. -/
def Obligations.DecodeFollowsRsvAndOp : Prop :=
  ∀ w : Word,
    (w.extractLsb' 4 28 ≠ 0 → ∃ e, decode w = .error e) ∧
    (w.extractLsb' 4 28 = 0 →
      (w.extractLsb' 0 4 = 0x0#4 → decode w = .ok .nop) ∧
      (w.extractLsb' 0 4 = 0x1#4 → decode w = .ok .read) ∧
      (w.extractLsb' 0 4 = 0x2#4 → decode w = .ok .dpPrecise) ∧
      (w.extractLsb' 0 4 = 0x3#4 → decode w = .ok .dpFast) ∧
      (4 ≤ (w.extractLsb' 0 4).toNat → ∃ e, decode w = .error e))

/-- 30_encoding.md R80-R83: over all 2^32 words and all commands, a word decodes to a command exactly when it is the
command's encoding, and the table's numbering of the word gives the same command. -/
def Obligations.DecodeIsTheInverseOfEncode : Prop :=
  ∀ (i : Instr) (w : Word),
    (decode w = .ok i ↔ w = encode i) ∧ (w = encode i → decodeTableWord 32 w.toNat = some i)

/-- 30_encoding.md R81 and 95_test_vectors.md section 2: the full words of the commands and some illegal words. -/
def Obligations.SpecWordsDecode : Prop :=
  decode 0x00000000#32 = .ok .nop ∧ decode 0x00000001#32 = .ok .read ∧
  decode 0x00000002#32 = .ok .dpPrecise ∧ decode 0x00000003#32 = .ok .dpFast ∧
  decode 0x00000004#32 = .error .reservedOpcode ∧ decode 0x0000000F#32 = .error .reservedOpcode ∧
  decode 0x00000010#32 = .error .reservedBits ∧ decode 0x00000012#32 = .error .reservedBits ∧
  decode 0x80000001#32 = .error .reservedBits ∧ decode 0xFFFFFFFF#32 = .error .reservedBits

/-- 30_encoding.md R82: a word with RSV ≠ 0 or OP ≥ 4, and no command's word, is illegal; written to CMD it raises
HostError(ILLEGAL) and has no other effect, busy or not. -/
def Obligations.IllegalWordsRaiseIllegal : Prop :=
  ∀ w : Word,
    ((w.extractLsb' 4 28 ≠ 0 ∨ 4 ≤ (w.extractLsb' 0 4).toNat) ↔ ∀ i, w ≠ encode i) ∧
    (w.extractLsb' 4 28 ≠ 0 ∨ 4 ≤ (w.extractLsb' 0 4).toNat → ∀ s : State,
      hostStep s (.wr 0x04#8 w) =
        .next { s with hif := { s.hif with cause := .illegal, intPend := s.hif.intPend ||| 0b100#3 } })

/-! ## Commands: completion, refusal, frame -/

/-- 40_commands.md R102: NOP, the word 0x00000000, is accepted in every state, busy or not, and has no effect. -/
def Obligations.NopCompletesWithoutEffect : Prop :=
  decode 0x00000000#32 = .ok .nop ∧ ∀ s : State, exec .nop s = .next s ∧ hostStep s (.wr 0x04#8 0x00000000#32) = .next s

/-- 40_commands.md R103: READ with PHASE = IDLE starts a transaction; everything it does not name stays. -/
def Obligations.ReadStartsATransaction : Prop :=
  ∀ s : State, s.rd.phase = .idle →
    exec .read s = .next { s with rd := { s.rd with
      phase := .check, cnt := 0#16, bitcnt := 0#6, shift := 0#40, raw := ⟨0#8, 0#8, 0#8, 0#8, 0#8⟩, rawFull := false } }

/-- 40_commands.md R104: READ with PHASE ≠ IDLE raises HostError(BUSY) and changes nothing else. -/
def Obligations.ReadWhileBusyIsRefused : Prop :=
  ∀ s : State, s.rd.phase ≠ .idle →
    exec .read s = .next { s with hif := { s.hif with cause := .busy, intPend := s.hif.intPend ||| 0b100#3 } }

/-- 40_commands.md R105, R106: DP_PRECISE with DP_BUSY = 0 starts the precise computation on DP_IN. -/
def Obligations.DpPreciseStartsAComputation : Prop :=
  ∀ s : State, s.dp.busy = false →
    exec .dpPrecise s = .next { s with dp := { s.dp with
      busy := true, modeL := .precise, cnt := s.params.dpLatP, op := s.dp.dpIn } }

/-- 40_commands.md R105, R107: DP_FAST with DP_BUSY = 0 starts the fast computation on DP_IN. -/
def Obligations.DpFastStartsAComputation : Prop :=
  ∀ s : State, s.dp.busy = false →
    exec .dpFast s = .next { s with dp := { s.dp with
      busy := true, modeL := .fast, cnt := s.params.dpLatF, op := s.dp.dpIn } }

/-- 40_commands.md R100, R105: either dew-point command with DP_BUSY = 1 raises HostError(BUSY) and changes nothing
else. -/
def Obligations.DpCommandsWhileBusyAreRefused : Prop :=
  ∀ s : State, s.dp.busy = true → ∀ i : Instr, i = .dpPrecise ∨ i = .dpFast →
    exec i s = .next { s with hif := { s.hif with cause := .busy, intPend := s.hif.intPend ||| 0b100#3 } }

/-- The frame of the four commands (40_commands.md R101-R107), accepted or refused: every register of the window reads
as before but the ones named, and every other piece of state is unchanged. -/
def Obligations.CommandsLeaveTheRestUnchanged : Prop :=
  ∀ (i : Instr) (s t : State), exec i s = .next t →
    (t.params = s.params ∧ t.timing = s.timing ∧ t.timer = s.timer ∧ t.lineQ = s.lineQ ∧ t.env = s.env ∧
      t.hif.intEn = s.hif.intEn) ∧
    (i = .nop → ∀ off, view t off = view s off) ∧
    (i = .read → t.dp = s.dp ∧ t.rd.valid = s.rd.valid ∧ t.rd.haveValid = s.rd.haveValid ∧
      t.rd.lastCode = s.rd.lastCode ∧ t.rd.lastPhase = s.rd.lastPhase ∧ t.rd.lastBits = s.rd.lastBits ∧
      ∀ off, off ∉ [0x08#8, 0x10#8, 0x38#8, 0x3C#8, 0x58#8] → view t off = view s off) ∧
    (i = .dpPrecise ∨ i = .dpFast → t.rd = s.rd ∧ t.dp.dpIn = s.dp.dpIn ∧ t.dp.td10 = s.dp.td10 ∧
      t.dp.domain = s.dp.domain ∧ t.dp.range = s.dp.range ∧ t.dp.sat = s.dp.sat ∧ t.dp.mode = s.dp.mode ∧
      t.dp.done = s.dp.done ∧
      ∀ off, off ∉ [0x08#8, 0x10#8, 0x50#8] → view t off = view s off)

/-- 40_commands.md R100; 20_memory.md R66: a cycle whose host operation is a CMD write of a command's word runs that
command on the pre-state; the units then advance from the pre-state, and the bus answers OK. For any host operation the
step takes its effect `s1` and advances the units: the timing registers, INT_EN, HOST_ERR_CAUSE and the parameters are
those of `s1`, no pending bit of `s1` is lost, and a unit that does not run in the cycle is as `s1` has it. -/
def Obligations.StepRunsTheDecodedCommand : Prop :=
  (∀ (s : State) (i : Instr) (w : Word), i.wf = true → running s →
    hostNext s.env.program = some (.wr 0x04#8 w) → decode w = .ok i →
    step s = thenAdvance s (.wr .ok) (exec i s)) ∧
  (∀ (s s1 : State) (op : HostOp), running s → hostNext s.env.program = some op → hostStep s op = .next s1 →
    ∃ t, step s = .next t ∧ t = advance s s1 (busReply s op) ∧
      t.timing = s1.timing ∧ t.params = s1.params ∧ t.hif.intEn = s1.hif.intEn ∧ t.hif.cause = s1.hif.cause ∧
      (∀ k, s1.hif.intPend.getLsbD k = true → t.hif.intPend.getLsbD k = true) ∧
      (s.rd.phase = .idle ∨ s.timer.presc.toNat < s.timing.tickDiv.toNat → t.rd = s1.rd) ∧
      (s.dp.busy = false → t.dp = s1.dp) ∧ t.env.busOut = busReply s op)

/-- The model's `withFetchWord` (assumption log 12): with any state, the very next step runs the placed command. -/
def Obligations.PlacedCommandRunsNext : Prop :=
  ∀ (s : State) (i : Instr) (t1 : State),
    exec i (s.withFetchWord 32 (encode i).toNat) = .next t1 →
    step (s.withFetchWord 32 (encode i).toNat) = .next (advance (s.withFetchWord 32 (encode i).toNat) t1 (.wr .ok))

/-! ## Bus -/

/-- 20_memory.md R63: a misaligned read or write gets ERR (and read data 0) and has no effect on any state: the cycle is
otherwise one without a host operation, but for the host's own fault record (93_implementation_defined.md I7; the form of
that record is the model's, log 21). Then that record: an ERR response adds its access, nothing else adds one, and no
step loses one. -/
def Obligations.MisalignedAccessHasNoEffect : Prop :=
  (∀ (s : State) (off : Offset) (data : Word), running s → off.toNat % 4 ≠ 0 →
    ∃ t, step (withHost s (.idle 1)) = .next t ∧
      step (withHost s (.rd off)) = .next { t with env := { t.env with
        busOut := .rd .err 0#32, busFaults := ⟨s.env.clk, .rd off⟩ :: s.env.busFaults } } ∧
      step (withHost s (.wr off data)) = .next { t with env := { t.env with
        busOut := .wr .err, busFaults := ⟨s.env.clk, .wr off data⟩ :: s.env.busFaults } }) ∧
  (∀ (s t : State) (op : HostOp), running s → hostNext s.env.program = some op → step s = .next t →
    (∀ off data, op = .rd off ∨ op = .wr off data → off.toNat % 4 ≠ 0 →
      t.env.busFaults = ⟨s.env.clk, op⟩ :: s.env.busFaults) ∧
    ((∀ off data, op = .rd off ∨ op = .wr off data → off.toNat % 4 = 0) → t.env.busFaults = s.env.busFaults)) ∧
  (∀ s t : State, rstNow s.env = true → step s = .next t → t.env.busFaults = s.env.busFaults)

/-- 20_memory.md R64: an aligned read returns OK and the view of the pre-state, 0 at a reserved offset, and changes no
state: the cycle is otherwise one without a host operation. Then the views by the layouts of 10_state.md R24, R25,
R27-R41, R43 and R45 and 20_memory.md R70; those of STATUS, READING, DP_OUT and DBG are statements of their own. -/
def Obligations.ReadsReturnTheViewAndChangeNothing : Prop :=
  (∀ (s : State) (off : Offset), running s → off.toNat % 4 = 0 →
    (∃ t, step (withHost s (.idle 1)) = .next t ∧
      step (withHost s (.rd off)) = .next { t with env := { t.env with busOut := .rd .ok (view s off) } }) ∧
    (0x5C ≤ off.toNat → view s off = 0#32)) ∧
  (∀ s : State,
    (view s 0x00#8 = if s.params.variant = .v0 then 0x44540100#32 else 0x44540101#32) ∧
    view s 0x04#8 = 0#32 ∧
    view s 0x0C#8 = 0#29 ++ s.hif.intEn ∧ view s 0x10#8 = 0#29 ++ s.hif.intPend ∧
    view s 0x14#8 = 0#16 ++ s.timing.tickDiv ∧ view s 0x18#8 = 0#16 ++ s.timing.tStab ∧
    view s 0x1C#8 = 0#16 ++ s.timing.tStart ∧ view s 0x20#8 = 0#16 ++ s.timing.toPres ∧
    view s 0x24#8 = 0#16 ++ s.timing.toSyncL ∧ view s 0x28#8 = 0#16 ++ s.timing.toSyncH ∧
    view s 0x2C#8 = 0#16 ++ s.timing.toBitL ∧ view s 0x30#8 = 0#16 ++ s.timing.tSample ∧
    view s 0x34#8 = 0#16 ++ s.timing.toBitH ∧
    view s 0x38#8 = s.rd.raw.b0 ++ s.rd.raw.b1 ++ s.rd.raw.b2 ++ s.rd.raw.b3 ∧ view s 0x3C#8 = 0#24 ++ s.rd.raw.b4 ∧
    view s 0x40#8 = s.rd.valid.b0 ++ s.rd.valid.b1 ++ s.rd.valid.b2 ++ s.rd.valid.b3 ∧
    view s 0x44#8 = 0#24 ++ s.rd.valid.b4 ∧
    view s 0x4C#8 = s.dp.dpIn ∧ view s 0x54#8 = s.timer.usCount)

/-- 20_memory.md R65, but for the locked cases (R67) and the timing registers: the write table, with its OK response;
and INT_EN after a running step: what a write to it stores, and unchanged under every other host operation. -/
def Obligations.WriteTable : Prop :=
  (∀ (s : State) (data : Word),
    hostStep s (.wr 0x04#8 data) = command s data ∧
    hostStep s (.wr 0x0C#8 data) = .next { s with hif := { s.hif with intEn := data.extractLsb' 0 3 } } ∧
    hostStep s (.wr 0x10#8 data) =
      .next { s with hif := { s.hif with intPend := s.hif.intPend &&& ~~~(data.extractLsb' 0 3) } } ∧
    (s.dp.busy = false → hostStep s (.wr 0x4C#8 data) = .next { s with dp := { s.dp with dpIn := data } }) ∧
    (∀ off : Offset, off.toNat % 4 = 0 →
      off ∉ [0x04#8, 0x0C#8, 0x10#8, 0x14#8, 0x18#8, 0x1C#8, 0x20#8, 0x24#8, 0x28#8, 0x2C#8, 0x30#8, 0x34#8, 0x4C#8] →
      hostStep s (.wr off data) = .next s) ∧
    (∀ off : Offset, off.toNat % 4 = 0 → busReply s (.wr off data) = .wr .ok)) ∧
  (∀ (s t : State) (op : HostOp), running s → hostNext s.env.program = some op → step s = .next t →
    (∀ data, op = .wr 0x0C#8 data → t.hif.intEn = data.extractLsb' 0 3) ∧
    ((∀ data, op ≠ .wr 0x0C#8 data) → t.hif.intEn = s.hif.intEn))

/-- 20_memory.md R65; 10_state.md R29-R37: an accepted write to one of the nine timing registers, each named by its
offset, stores data[15:0] there and changes nothing else, and every other register of the window reads as before; a
running step leaves the timing registers as such a write leaves them, and unchanged under every other operation. -/
def Obligations.TimingWriteStoresTheLowHalf : Prop :=
  (∀ (s : State) (data : Word), s.rd.phase = .idle →
    hostStep s (.wr 0x14#8 data) = .next { s with timing := { s.timing with tickDiv := data.extractLsb' 0 16 } } ∧
    hostStep s (.wr 0x18#8 data) = .next { s with timing := { s.timing with tStab := data.extractLsb' 0 16 } } ∧
    hostStep s (.wr 0x1C#8 data) = .next { s with timing := { s.timing with tStart := data.extractLsb' 0 16 } } ∧
    hostStep s (.wr 0x20#8 data) = .next { s with timing := { s.timing with toPres := data.extractLsb' 0 16 } } ∧
    hostStep s (.wr 0x24#8 data) = .next { s with timing := { s.timing with toSyncL := data.extractLsb' 0 16 } } ∧
    hostStep s (.wr 0x28#8 data) = .next { s with timing := { s.timing with toSyncH := data.extractLsb' 0 16 } } ∧
    hostStep s (.wr 0x2C#8 data) = .next { s with timing := { s.timing with toBitL := data.extractLsb' 0 16 } } ∧
    hostStep s (.wr 0x30#8 data) = .next { s with timing := { s.timing with tSample := data.extractLsb' 0 16 } } ∧
    hostStep s (.wr 0x34#8 data) = .next { s with timing := { s.timing with toBitH := data.extractLsb' 0 16 } }) ∧
  (∀ (s : State) (off : Offset) (data : Word), s.rd.phase = .idle →
    off ∈ [0x14#8, 0x18#8, 0x1C#8, 0x20#8, 0x24#8, 0x28#8, 0x2C#8, 0x30#8, 0x34#8] →
    ∃ t1, hostStep s (.wr off data) = .next t1 ∧ view t1 off = 0#16 ++ data.extractLsb' 0 16 ∧
      (∀ off', off' ≠ off → view t1 off' = view s off') ∧
      t1.rd = s.rd ∧ t1.dp = s.dp ∧ t1.timer = s.timer ∧ t1.hif = s.hif ∧
      (running s → hostNext s.env.program = some (.wr off data) →
        ∃ t, step s = .next t ∧ t.timing = t1.timing)) ∧
  (∀ (s t : State) (op : HostOp), running s → hostNext s.env.program = some op → step s = .next t →
    (∀ off data, off ∈ [0x14#8, 0x18#8, 0x1C#8, 0x20#8, 0x24#8, 0x28#8, 0x2C#8, 0x30#8, 0x34#8] → op ≠ .wr off data) →
    t.timing = s.timing)

/-- 20_memory.md R67: a timing-register write while RD_BUSY = 1 and a DP_IN write while DP_BUSY = 1 change no register
and raise HostError(LOCKED), so those registers cannot change while their unit is busy. -/
def Obligations.LockedWritesAreRefused : Prop :=
  ∀ s : State,
    (s.rd.phase ≠ .idle → ∀ (off : Offset) (data : Word),
      off ∈ [0x14#8, 0x18#8, 0x1C#8, 0x20#8, 0x24#8, 0x28#8, 0x2C#8, 0x30#8, 0x34#8] →
      hostStep s (.wr off data) =
        .next { s with hif := { s.hif with cause := .locked, intPend := s.hif.intPend ||| 0b100#3 } }) ∧
    (s.dp.busy = true → ∀ data : Word, hostStep s (.wr 0x4C#8 data) =
        .next { s with hif := { s.hif with cause := .locked, intPend := s.hif.intPend ||| 0b100#3 } }) ∧
    (∀ t, running s → step s = .next t →
      (s.rd.phase ≠ .idle → t.timing = s.timing) ∧ (s.dp.busy = true → t.dp.dpIn = s.dp.dpIn))

/-- 20_memory.md R68: every bit of INT_PEND after a cycle; a set in the cycle of a clear wins. -/
def Obligations.PendingSetWinsOverClear : Prop :=
  ∀ (s t : State) (op : HostOp), running s → hostNext s.env.program = some op → step s = .next t →
    ∀ k < 3, t.hif.intPend.getLsbD k =
      ((s.hif.intPend.getLsbD k && !(w1cMask op).getLsbD k) || pendSet s t op k)

/-- 60_exceptions.md R236, R237, R245: HOST_ERR_CAUSE after a cycle is the cause the host operation raises by the table
of R237, judged on the pre-state, and is unchanged where it raises none. -/
def Obligations.HostErrorCauseFollowsTheTable : Prop :=
  ∀ (s t : State) (op : HostOp), running s → hostNext s.env.program = some op → step s = .next t →
    t.hif.cause = (hostErrorOf s op).getD s.hif.cause

/-- 60_exceptions.md R244: a host operation in the cycle of a completion is judged on the pre-state: READ and
timing-register writes are still refused, and so are dew-point commands and DP_IN writes. -/
def Obligations.CompletionInTheSameCycleDoesNotHelp : Prop :=
  ∀ (s t : State) (data : Word), running s → step s = .next t →
    (s.rd.phase ≠ .idle → t.rd.phase = .idle →
      (hostNext s.env.program = some (.wr 0x04#8 0x1#32) → t.hif.cause = .busy) ∧
      (∀ k, hostNext s.env.program = some (.wr (offsetOf (.timing k)) data) →
        t.hif.cause = .locked ∧ t.timing = s.timing)) ∧
    (s.dp.busy = true → t.dp.busy = false →
      (hostNext s.env.program = some (.wr 0x04#8 0x2#32) → t.hif.cause = .busy) ∧
      (hostNext s.env.program = some (.wr 0x04#8 0x3#32) → t.hif.cause = .busy) ∧
      (hostNext s.env.program = some (.wr 0x4C#8 data) → t.hif.cause = .locked ∧ t.dp.dpIn = s.dp.dpIn))

/-- 60_exceptions.md R240: irq is 1 exactly when some source is both pending and enabled. -/
def Obligations.IrqIsAnEnabledPendingSource : Prop :=
  ∀ h : HostIf, irq h = true ↔ ∃ k < 3, h.intPend.getLsbD k = true ∧ h.intEn.getLsbD k = true

/-- 30_encoding.md R87: POLL repeats its read until (data AND mask) = val. -/
def Obligations.PollRepeatsUntilItsConditionHolds : Prop :=
  ∀ (s t : State) (off : Offset) (mask val : Word) (rest : List HostCmd), running s → off.toNat % 4 = 0 →
    s.env.program = .poll off mask val :: rest → step s = .next t →
    (view s off &&& mask = val → t.env.program = rest) ∧ (view s off &&& mask ≠ val → t.env.program = s.env.program)

/-- 30_encoding.md R87; 70_reset_and_hazards.md R279; 40_commands.md R105: the two writes of DEWPOINT, from an idle
dew-point unit, start the precise computation on the given operands. -/
def Obligations.DewpointProgramStartsOnItsOperands : Prop :=
  ∀ (s : State) (t10 : Int) (h10 : Nat) (rest : List HostCmd), running s → noReset s →
    s.dp.busy = false → -32768 ≤ t10 → t10 ≤ 32767 → h10 ≤ 65535 → s.env.program = dewpointProg t10 h10 ++ rest →
    ∃ t, Host.Core.run Sys2Proof.core 2 s = .next t ∧ t.dp.busy = true ∧ t.dp.modeL = .precise ∧
      t.dp.cnt = s.params.dpLatP ∧ opT10 t.dp.op = t10 ∧ opH10 t.dp.op = h10 ∧ t.env.program = rest

/-! ## Register layouts -/

/-- 10_state.md R26, with the codes of 60_exceptions.md R230 and R237 and the phases of 10_state.md R21: the fields of
STATUS. -/
def Obligations.StatusFields : Prop :=
  (∀ s : State,
    (view s 0x08#8).getLsbD 0 = decide (s.rd.phase ≠ .idle) ∧ (view s 0x08#8).getLsbD 1 = s.dp.busy ∧
    (view s 0x08#8).getLsbD 2 = s.rd.haveValid ∧ (view s 0x08#8).getLsbD 3 = s.rd.rawFull ∧
    (view s 0x08#8).extractLsb' 4 4 = codeBits s.rd.lastCode ∧
    (view s 0x08#8).extractLsb' 8 4 = phaseBits s.rd.lastPhase ∧
    (view s 0x08#8).extractLsb' 12 6 = s.rd.lastBits ∧
    (view s 0x08#8).extractLsb' 18 3 = causeBits s.hif.cause ∧ (view s 0x08#8).extractLsb' 21 11 = 0#11) ∧
  [Code.success, .notDetected, .syncTimeout, .overlyFast, .dataTimeout, .badChecksum, .badStart, .busBusy, .none].map
    codeBits = [0#4, 1#4, 2#4, 3#4, 4#4, 5#4, 6#4, 7#4, 15#4] ∧
  [Phase.idle, .check, .stab, .start, .wPres, .wSyncL, .wSyncH, .bLow, .bSample, .bHigh].map phaseBits =
    [0#4, 1#4, 2#4, 3#4, 4#4, 5#4, 6#4, 7#4, 8#4, 9#4] ∧
  [Cause.none, .busy, .illegal, .locked].map causeBits = [0#3, 1#3, 2#3, 3#3]

/-- 10_state.md R44: the fields of DP_OUT. -/
def Obligations.DpOutFields : Prop :=
  ∀ s : State,
    (view s 0x50#8).extractLsb' 0 16 = s.dp.td10 ∧ (view s 0x50#8).getLsbD 16 = s.dp.domain ∧
    (view s 0x50#8).getLsbD 17 = s.dp.range ∧ (view s 0x50#8).getLsbD 18 = s.dp.sat ∧
    (view s 0x50#8).getLsbD 19 = decide (s.dp.mode = .fast) ∧ (view s 0x50#8).extractLsb' 20 10 = 0#10 ∧
    (view s 0x50#8).getLsbD 30 = s.dp.done ∧ (view s 0x50#8).getLsbD 31 = s.dp.busy

/-- 10_state.md R46, with the pad modes of R21 and R23: the fields of DBG. -/
def Obligations.DbgFields : Prop :=
  ∀ s : State,
    (view s 0x58#8).extractLsb' 0 4 = phaseBits s.rd.phase ∧ (view s 0x58#8).extractLsb' 4 6 = s.rd.bitcnt ∧
    (view s 0x58#8).getLsbD 10 = s.lineQ ∧
    (view s 0x58#8).extractLsb' 11 2 =
      (if s.rd.phase = .start then 1#2 else if s.rd.phase = .stab then 2#2 else 0#2) ∧
    (view s 0x58#8).extractLsb' 13 3 = 0#3 ∧ (view s 0x58#8).extractLsb' 16 16 = s.rd.cnt

/-- 43_frame_validator.md R175: READING of the lower-resolution variant, from the VALID bytes. -/
def Obligations.ReadingOfVariant0 : Prop :=
  ∀ s : State, s.params.variant = .v0 →
    ((view s 0x48#8).extractLsb' 0 16).toNat = s.rd.valid.b0.toNat * 10 + s.rd.valid.b1.toNat ∧
    ((view s 0x48#8).extractLsb' 16 16).toInt = ((s.rd.valid.b2.toNat * 10 + s.rd.valid.b3.toNat : Nat) : Int)

/-- 43_frame_validator.md R176: READING of the higher-resolution variant, with the sign in bit 7 of byte 2. -/
def Obligations.ReadingOfVariant1 : Prop :=
  ∀ s : State, s.params.variant = .v1 →
    ((view s 0x48#8).extractLsb' 0 16).toNat = s.rd.valid.b0.toNat * 256 + s.rd.valid.b1.toNat ∧
    ((view s 0x48#8).extractLsb' 16 16).toInt =
      if s.rd.valid.b2.getLsbD 7 then -(((s.rd.valid.b2.toNat % 128) * 256 + s.rd.valid.b3.toNat : Nat) : Int)
      else (((s.rd.valid.b2.toNat % 128) * 256 + s.rd.valid.b3.toNat : Nat) : Int)

/-- 20_memory.md R70; 42_frame_decoder.md R153: after 40 sampled bits, the k-th captured bit (k = 0 the first) is bit
7 − k mod 8 of byte k / 8, whatever SHIFT held before. -/
def Obligations.PackIsInCaptureOrder : Prop :=
  ∀ (sh : BitVec 40) (bits : List Bool), bits.length = 40 → ∀ k : Fin 40,
    ((pack (bits.foldl shiftIn sh)).byte ⟨k.val / 8, by omega⟩).getLsbD (7 - k.val % 8) = bits.getD k.val false

/-! ## Pulse timer and edge waiter -/

/-- 41_pulse_timer_edge_waiter.md R120, R121; 10_state.md R51: PRESC, US_COUNT and LINE_Q after a cycle. -/
def Obligations.PulseTimerStep : Prop :=
  ∀ s t : State, running s → step s = .next t →
    (s.timing.tickDiv.toNat ≤ s.timer.presc.toNat →
      t.timer.presc = 0#16 ∧ t.timer.usCount.toNat = (s.timer.usCount.toNat + 1) % 2 ^ 32) ∧
    (s.timer.presc.toNat < s.timing.tickDiv.toNat →
      t.timer.presc.toNat = s.timer.presc.toNat + 1 ∧ t.timer.usCount = s.timer.usCount) ∧
    t.lineQ = lineNow s.env

/-- 42_frame_decoder.md R143: CHECK's one sample, on its first tick, with the pad not driven. 41_pulse_timer_edge_waiter.md
R123, with the exits of 42_frame_decoder.md R144, R145 and R150: from entry, a hold of N counts CNT up for max(N, 1) − 1
ticks whatever the line does, and its exit action runs on tick max(N, 1). -/
def Obligations.HoldLastsItsTicks : Prop :=
  ∀ (tm : Timing) (r : ReadUnit) (ls : List Bool) (l : Bool), r.cnt = 0#16 →
    (r.phase = .check →
      padMode r.phase = .inputPu ∧
      decoderTicks tm r [true] = { r with phase := .stab, cnt := 0#16 } ∧
      decoderTicks tm r [false] = { r with
        phase := .idle, lastCode := .busBusy, lastPhase := .check, lastBits := r.bitcnt }) ∧
    (r.phase = .stab →
      (ls.length < max tm.tStab.toNat 1 → decoderTicks tm r ls = { r with cnt := BitVec.ofNat 16 ls.length }) ∧
      (ls.length + 1 = max tm.tStab.toNat 1 → decoderTicks tm r (ls ++ [l]) = { r with phase := .start, cnt := 0#16 })) ∧
    (r.phase = .start →
      (ls.length < max tm.tStart.toNat 1 → decoderTicks tm r ls = { r with cnt := BitVec.ofNat 16 ls.length }) ∧
      (ls.length + 1 = max tm.tStart.toNat 1 →
        decoderTicks tm r (ls ++ [false]) = { r with phase := .wPres, cnt := 0#16 } ∧
        decoderTicks tm r (ls ++ [true]) = { r with
          phase := .idle, cnt := BitVec.ofNat 16 ls.length, lastCode := .badStart, lastPhase := .start,
          lastBits := r.bitcnt })) ∧
    (r.phase = .bSample →
      (ls.length < max tm.tSample.toNat 1 → decoderTicks tm r ls = { r with cnt := BitVec.ofNat 16 ls.length }) ∧
      (ls.length + 1 = max tm.tSample.toNat 1 → decoderTicks tm r (ls ++ [l]) = { r with
        phase := .bHigh, cnt := 0#16, bitcnt := r.bitcnt + 1,
        shift := r.shift.extractLsb' 0 39 ++ BitVec.ofBool l }))

/-- 41_pulse_timer_edge_waiter.md R125, for the five waits of 42_frame_decoder.md R154: a wait entered with CNT = 0
succeeds on the first of its TO + 1 polls that shows the level (B_HIGH after bit 40 then ends the transaction with the
packed frame), and times out on poll TO + 1 if none does, with the phase's code and CNT = TO. -/
def Obligations.WaitMakesAtMostTimeoutPlusOnePolls : Prop :=
  ∀ (tm : Timing) (r : ReadUnit) (level : Bool) (bound : Half) (next : Phase) (code : Code),
    waitTable tm r.phase = some (level, bound, next, code) → r.cnt = 0#16 →
    (∀ ls : List Bool, ls.length ≤ bound.toNat → (∀ l ∈ ls, l ≠ level) →
      (decoderTicks tm r ls).phase = r.phase ∧
      (r.phase ≠ .bHigh ∨ r.bitcnt.toNat < 40 →
        decoderTicks tm r (ls ++ [level]) = { r with phase := next, cnt := 0#16 }) ∧
      (r.phase = .bHigh → 40 ≤ r.bitcnt.toNat →
        (decoderTicks tm r (ls ++ [level])).phase = .idle ∧ (decoderTicks tm r (ls ++ [level])).rawFull = true ∧
        (decoderTicks tm r (ls ++ [level])).raw = pack r.shift ∧
        (decoderTicks tm r (ls ++ [level])).lastPhase = .bHigh)) ∧
    (∀ ls : List Bool, ls.length = bound.toNat + 1 → (∀ l ∈ ls, l ≠ level) →
      decoderTicks tm r ls = { r with
        phase := .idle, cnt := bound, lastCode := code, lastPhase := r.phase, lastBits := r.bitcnt })

/-- 42_frame_decoder.md R151, with the line low from the falling edge to the sample tick: with D = max(T_SAMPLE, 1), a
high pulse of w polled ticks from B_LOW's SEEN tick gives the bit 1 if w > D and 0 if w ≤ D, sampled on tick t_e + D. -/
def Obligations.PulseWidthClassifier : Prop :=
  ∀ (tm : Timing) (r : ReadUnit) (w : Nat), r.phase = .bLow → 1 ≤ w → w ≤ max tm.tSample.toNat 1 + 1 →
    decoderTicks tm r (List.replicate w true ++ List.replicate (max tm.tSample.toNat 1 + 1 - w) false) = { r with
      phase := .bHigh, cnt := 0#16, bitcnt := r.bitcnt + 1,
      shift := r.shift.extractLsb' 0 39 ++ BitVec.ofBool (decide (max tm.tSample.toNat 1 < w)) }

/-- 42_frame_decoder.md R149-R153, R155; 43_frame_validator.md R173: from the entry of B_LOW before the first bit, 40
accepted pulses capture exactly the bits the threshold of R151 gives, pack them, and complete SUCCESS or BAD_CHECKSUM by
the checksum, releasing the frame only on SUCCESS. -/
def Obligations.AcceptedPulsesCaptureTheFrame : Prop :=
  ∀ (tm : Timing) (r : ReadUnit) (ws : List (Nat × Nat)),
    r.phase = .bLow → r.cnt = 0#16 → r.bitcnt = 0#6 → ws.length = 40 → (∀ x ∈ ws, acceptedPulse tm x.1 x.2) →
    let sh := (ws.map fun x => decide (sampleDelay tm < x.2)).foldl shiftIn r.shift
    decoderTicks tm r (ws.flatMap fun x => bitWave tm x.1 x.2) = { r with
      phase := .idle, cnt := 0#16, bitcnt := 40#6, shift := sh, raw := pack sh, rawFull := true,
      valid := if checksumOk (pack sh) then pack sh else r.valid,
      haveValid := if checksumOk (pack sh) then true else r.haveValid,
      lastCode := if checksumOk (pack sh) then .success else .badChecksum,
      lastPhase := .bHigh, lastBits := 40#6 }

/-! ## Frame decoder and validator, over whole steps -/

/-- 42_frame_decoder.md R140, R141: no step leaves the phase order, but a reset. -/
def Obligations.PhasesFollowTheOrder : Prop :=
  ∀ s t : State, running s → step s = .next t → t.rd.phase ∈ mayFollow s.rd.phase

/-- 42_frame_decoder.md R142; 40_commands.md R103, R108: a busy read unit moves only on ticks, by the line alone,
whatever the host does; an idle one is changed only by an accepted READ. -/
def Obligations.ReadUnitMovesOnlyByTickOrRead : Prop :=
  ∀ s t : State, running s → step s = .next t →
    (s.rd.phase ≠ .idle → s.timer.presc.toNat < s.timing.tickDiv.toNat → t.rd = s.rd) ∧
    (s.rd.phase ≠ .idle → s.timing.tickDiv.toNat ≤ s.timer.presc.toNat →
      t.rd = decoderTicks s.timing s.rd [lineNow s.env]) ∧
    (s.rd.phase = .idle → hostNext s.env.program ≠ some (.wr 0x04#8 0x1#32) → t.rd = s.rd) ∧
    (s.rd.phase = .idle → hostNext s.env.program = some (.wr 0x04#8 0x1#32) → t.rd = s.rd.accept)

/-- 42_frame_decoder.md R141; 60_exceptions.md R231: the completing step records phase and bit count, sets RD_DONE and
leaves a record that fits its code; no other step but a reset changes the record. -/
def Obligations.CompletionRecordIsPrecise : Prop :=
  ∀ s t : State, ReadInv s.timing s.rd → running s → step s = .next t →
    (s.rd.phase ≠ .idle → t.rd.phase = .idle →
      s.timing.tickDiv.toNat ≤ s.timer.presc.toNat ∧ t.rd.lastPhase = s.rd.phase ∧ t.rd.lastBits = s.rd.bitcnt ∧
      t.rd.bitcnt = s.rd.bitcnt ∧ t.rd.shift = s.rd.shift ∧ t.hif.intPend.getLsbD 0 = true ∧
      t.rd.lastCode ≠ .none ∧ recordFits t.rd.lastCode t.rd.lastPhase t.rd.lastBits.toNat = true) ∧
    (s.rd.phase = .idle ∨ t.rd.phase ≠ .idle →
      t.rd.lastCode = s.rd.lastCode ∧ t.rd.lastPhase = s.rd.lastPhase ∧ t.rd.lastBits = s.rd.lastBits)

/-- 43_frame_validator.md R173; 42_frame_decoder.md R152: VALID and HAVE_VALID change only where B_HIGH ends after bit
40 with a good checksum, and RAW is released to VALID in that same tick; a bad checksum leaves them. -/
def Obligations.OnlySuccessReleasesAFrame : Prop :=
  ∀ s t : State, running s → step s = .next t →
    (s.rd.phase = .bHigh → 40 ≤ s.rd.bitcnt.toNat → s.timing.tickDiv.toNat ≤ s.timer.presc.toNat →
      lineNow s.env = false →
      t.rd.phase = .idle ∧ t.rd.rawFull = true ∧ t.rd.raw = pack s.rd.shift ∧
      (checksumOk (pack s.rd.shift) = true →
        t.rd.valid = t.rd.raw ∧ t.rd.haveValid = true ∧ t.rd.lastCode = .success) ∧
      (checksumOk (pack s.rd.shift) = false →
        t.rd.valid = s.rd.valid ∧ t.rd.haveValid = s.rd.haveValid ∧ t.rd.lastCode = .badChecksum)) ∧
    (¬ (s.rd.phase = .bHigh ∧ 40 ≤ s.rd.bitcnt.toNat ∧ s.timing.tickDiv.toNat ≤ s.timer.presc.toNat ∧
        lineNow s.env = false) →
      t.rd.valid = s.rd.valid ∧ t.rd.haveValid = s.rd.haveValid)

/-- 43_frame_validator.md R171: for each payload exactly one checksum byte validates, every single-bit error is
detected, and a two-bit error that flips one bit position up in one payload byte and down in another escapes. -/
def Obligations.ChecksumDetectsSingleBitErrors : Prop :=
  (∀ f : Frame, ∀ x : Byte, checksumOk (f.withByte 4 x) = true ↔
    x = BitVec.ofNat 8 ((f.b0.toNat + f.b1.toNat + f.b2.toNat + f.b3.toNat) % 256)) ∧
  (∀ (f : Frame) (i : Fin 5) (k : Nat), k < 8 → checksumOk f = true →
    checksumOk (f.withByte i (f.byte i ^^^ 1#8 <<< k)) = false) ∧
  (∀ (f : Frame) (i j : Fin 5) (k : Nat), i.val < 4 → j.val < 4 → i ≠ j → k < 8 →
    (f.byte i).getLsbD k = false → (f.byte j).getLsbD k = true →
    checksumOk ((f.withByte i (f.byte i ^^^ 1#8 <<< k)).withByte j (f.byte j ^^^ 1#8 <<< k)) = checksumOk f)

/-- 10_state.md R21, R22: the pad outputs (line_oe, line_o, line_pu) of every phase: the line is driven only in STAB
(high) and START (low). -/
def Obligations.PadIsDrivenOnlyInStabAndStart : Prop :=
  ∀ p : Phase, padOutputs (padMode p) =
    if p = .start then (true, false, false) else if p = .stab then (true, true, false) else (false, false, true)

/-! ## Dew point -/

/-- 00_scope.md R11: `tdiv` truncates toward zero, `rdiv` rounds to nearest with ties away from zero, and `msb` is the
index of the highest set bit, each said by the property that makes the answer unique. -/
def Obligations.IntegerOperationsRoundAsStated : Prop :=
  (∀ n d : Int, d ≠ 0 → (n - tdiv n d * d).natAbs < d.natAbs ∧ (tdiv n d * d).natAbs ≤ n.natAbs) ∧
  (∀ n d : Int, 0 < d → (2 * (n - rdiv n d * d)).natAbs ≤ d.natAbs ∧
    ((2 * (n - rdiv n d * d)).natAbs = d.natAbs → n.natAbs < (rdiv n d * d).natAbs)) ∧
  (∀ v : Nat, 1 ≤ v → 2 ^ msb v ≤ v ∧ v < 2 ^ (msb v + 1))

/-- 44_dewpoint.md R203: the worked intermediates for T10 = 240 and H10 = 500, in both modes. -/
def Obligations.DewPointWorkedExample : Prop :=
  log2PreciseQ20 500 = 9401306 ∧ (log2PreciseQ20 500 : Int) - cP = -1048576 ∧ lnQ16 (-1048576) = -45427 ∧
  tempTerm 240 = 103795 ∧ gammaQ16 (-1048576) 240 = 58368 ∧ aQ - 58368 = 1073439 ∧ b10 * 58368 = 138740736 ∧
  rdiv 138740736 1073439 = 129 ∧ (log2FastQ20 500 : Int) - cF = -1048576 ∧
  preciseDp 240 500 = ⟨129, false, false, false⟩ ∧ fastDp 240 500 = ⟨129, false, false, false⟩

/-- 44_dewpoint.md R193-R196: both logarithms lie in the octave of their operand, and are exact at powers of two. -/
def Obligations.LogarithmsLieInTheirOctave : Prop :=
  ∀ v : Nat, 1 ≤ v → v ≤ 65535 →
    (v.log2 * 2 ^ 20 ≤ log2PreciseQ20 v ∧ log2PreciseQ20 v < (v.log2 + 1) * 2 ^ 20) ∧
    (v.log2 * 2 ^ 20 ≤ log2FastQ20 v ∧ log2FastQ20 v < (v.log2 + 1) * 2 ^ 20) ∧
    (v = 2 ^ v.log2 → log2PreciseQ20 v = v.log2 * 2 ^ 20 ∧ log2FastQ20 v = v.log2 * 2 ^ 20)

/-- 44_dewpoint.md R202: at H10 = 1000, both modes give TD10 = T10 exactly, with SAT = 0; and that matches the real
function of R190, whose 10·Td is T10 there. -/
def Obligations.AirSaturationGivesTheTemperature : Prop :=
  ∀ t10 : Int, -2376 ≤ t10 → t10 ≤ 32767 →
    (preciseDp t10 1000).td = t10 ∧ (preciseDp t10 1000).sat = false ∧
    (fastDp t10 1000).td = t10 ∧ (fastDp t10 1000).sat = false ∧
    magnusTd10 t10 1000 = (t10 : ℝ)

/-- 44_dewpoint.md R208: DOMAIN is set, with TD10 = 0, exactly when H10 = 0, T10 ≤ −2377 or d ≤ 0, in both modes. -/
def Obligations.DomainFlagOfBothModes : Prop :=
  ∀ (t10 : Int) (h10 : Nat),
    ((preciseDp t10 h10).domain = true ↔
      h10 = 0 ∨ t10 ≤ -2377 ∨ 1131807 - gammaQ16 ((log2PreciseQ20 h10 : Int) - cP) t10 ≤ 0) ∧
    ((fastDp t10 h10).domain = true ↔
      h10 = 0 ∨ t10 ≤ -2377 ∨ 1131807 - gammaQ16 ((log2FastQ20 h10 : Int) - cF) t10 ≤ 0) ∧
    ((preciseDp t10 h10).domain = true → (preciseDp t10 h10).td = 0) ∧
    ((fastDp t10 h10).domain = true → (fastDp t10 h10).td = 0)

/-- 44_dewpoint.md R209: the result always lies in int16; SAT is set exactly when the rounded result lies
outside, which happens only at the top, and SAT = 1 implies TD10 = 32767 and DOMAIN = 0; in both modes. -/
def Obligations.SaturationOnlyAtTheTop : Prop :=
  ∀ (m : DpMode) (op : Word),
    (-2377 ≤ (dpResult m op).td ∧ (dpResult m op).td ≤ 32767) ∧
    ((dpResult m op).sat = true → (dpResult m op).td = 32767 ∧ (dpResult m op).domain = false) ∧
    (∀ g : Int, 0 < aQ - g → -2377 ≤ rdiv (b10 * g) (aQ - g) ∧
      ∀ range : Bool, (fromGamma g range).sat = true ↔ 32767 < rdiv (b10 * g) (aQ - g))

/-- 44_dewpoint.md R210: RANGE is set exactly outside the rated range, in both modes, and changes nothing else. -/
def Obligations.RangeFlagOfBothModes : Prop :=
  ∀ (t10 : Int) (h10 : Nat),
    ((preciseDp t10 h10).range = true ↔ ¬ (0 ≤ t10 ∧ t10 ≤ 500) ∨ ¬ (200 ≤ h10 ∧ h10 ≤ 900)) ∧
    ((fastDp t10 h10).range = true ↔ ¬ (0 ≤ t10 ∧ t10 ≤ 500) ∨ ¬ (200 ≤ h10 ∧ h10 ≤ 900)) ∧
    (∀ (g : Int) (a b : Bool), (fromGamma g a).td = (fromGamma g b).td ∧
      (fromGamma g a).domain = (fromGamma g b).domain ∧ (fromGamma g a).sat = (fromGamma g b).sat)

/-- 44_dewpoint.md R212, R206: over the rated range the two modes differ by at most 10 tenths, and T10 = 380, H10 = 749
attains that. -/
def Obligations.FastDeviatesByAtMostOneDegree : Prop :=
  (∀ (t10 : Int) (h10 : Nat), 0 ≤ t10 → t10 ≤ 500 → 200 ≤ h10 → h10 ≤ 900 →
    (preciseDp t10 h10).td - (fastDp t10 h10).td ≤ 10 ∧ (fastDp t10 h10).td - (preciseDp t10 h10).td ≤ 10) ∧
  (preciseDp 380 749).td = 328 ∧ (fastDp 380 749).td = 318

/-- 44_dewpoint.md R214, R215; 40_commands.md R105-R107: an accepted computation, whatever the host and the line do
short of a reset, keeps DP_BUSY and the old result for DP_CNT cycles and then shows exactly the result of its mode on
the operands copied at acceptance, with DONE and DP_DONE. -/
def Obligations.DewPointCompletesAfterItsLatency : Prop :=
  ∀ s : State, DpInv s.dp → running s → noReset s → hostOk s → s.dp.busy = true →
    (∀ k < s.dp.cnt.toNat, ∃ u, Host.Core.run Sys2Proof.core k s = .next u ∧
      u.dp = { s.dp with cnt := s.dp.cnt - BitVec.ofNat 8 k }) ∧
    (∃ t, Host.Core.run Sys2Proof.core s.dp.cnt.toNat s = .next t ∧
      t.dp = { s.dp with
        busy := false, cnt := 0#8, td10 := BitVec.ofInt 16 (dpResult s.dp.modeL s.dp.op).td,
        domain := (dpResult s.dp.modeL s.dp.op).domain, range := (dpResult s.dp.modeL s.dp.op).range,
        sat := (dpResult s.dp.modeL s.dp.op).sat, mode := s.dp.modeL, done := true } ∧
      t.hif.intPend.getLsbD 1 = true)

/-! ## The whole machine -/

/-- 10_state.md R54: the reset values of every state element, and the derived views, for every instance (the model's
`State.reset` is the instance with every parameter open). -/
def Obligations.ResetValues : Prop :=
  ∀ (p : Params) (s : State), s = State.resetWith p ∨ (p = Config.params ∧ s = State.reset) →
    s.rd = { phase := .idle, cnt := 0#16, bitcnt := 0#6, shift := 0#40, raw := ⟨0#8, 0#8, 0#8, 0#8, 0#8⟩,
             rawFull := false, valid := ⟨0#8, 0#8, 0#8, 0#8, 0#8⟩, haveValid := false, lastCode := .none,
             lastPhase := .idle, lastBits := 0#6 } ∧
    s.timing = { tickDiv := p.tickDivReset, tStab := 1000#16,
                 tStart := if p.variant = .v0 then 18000#16 else 2000#16,
                 toPres := 40#16, toSyncL := 100#16, toSyncH := 100#16, toBitL := 75#16, tSample := 40#16,
                 toBitH := 50#16 } ∧
    s.dp = { dpIn := 0#32, busy := false, cnt := 0#8, modeL := .precise, op := 0#32, td10 := 0#16, domain := false,
             range := false, sat := false, mode := .precise, done := false } ∧
    s.timer = { presc := 0#16, usCount := 0#32 } ∧ s.hif = { intEn := 0#3, intPend := 0#3, cause := .none } ∧
    s.lineQ = true ∧ view s 0x08#8 = 0x000000F0#32 ∧ view s 0x48#8 = 0#32 ∧ view s 0x50#8 = 0#32 ∧
    view s 0x58#8 = 0x00000400#32 ∧ padMode s.rd.phase = .inputPu ∧ irq s.hif = false ∧
    view s 0x00#8 = if p.variant = .v0 then 0x44540100#32 else 0x44540101#32

/-- 70_reset_and_hazards.md R270: with `rst` = 1 every state element takes its reset value, from any state and whatever
the host operation, the parameters stay, and the operation is answered OK with read data 0. -/
def Obligations.ResetFromAnyState : Prop :=
  ∀ s : State, rstNow s.env = true → ∃ t, step s = .next t ∧
    t.timing = (State.resetWith s.params).timing ∧ t.rd = (State.resetWith s.params).rd ∧
    t.dp = (State.resetWith s.params).dp ∧ t.timer = (State.resetWith s.params).timer ∧
    t.hif = (State.resetWith s.params).hif ∧ t.lineQ = true ∧ t.params = s.params ∧ t.env.wasReset = true ∧
    (∀ off, hostNext s.env.program = some (.rd off) → t.env.busOut = .rd .ok 0#32) ∧
    (∀ off data, hostNext s.env.program = some (.wr off data) → t.env.busOut = .wr .ok)

/-- 60_exceptions.md R235, R256; 70_reset_and_hazards.md R270: a step always answers a next state, but before the first
reset (a fault) and at a narrower access (a refusal, 20_memory.md R62). -/
def Obligations.NoHang : Prop :=
  ∀ s : State,
    ((∃ t, step s = .next t) ↔
      rstNow s.env = true ∨ (s.env.wasReset = true ∧ hostNext s.env.program ≠ none)) ∧
    (step s = .fault .beforeFirstReset ↔ rstNow s.env = false ∧ s.env.wasReset = false) ∧
    (step s = .refused .narrowAccess ↔ running s ∧ hostNext s.env.program = none)

/-- 00_scope.md R6: the parameters are fixed for the life of the instance. -/
def Obligations.ParametersNeverChange : Prop :=
  ∀ s t : State, step s = .next t → t.params = s.params

/-- 60_exceptions.md R255: in an idle block with no host operation only PRESC, US_COUNT, LINE_Q change (and the model's
own record of the inputs). -/
def Obligations.IdleBlockChangesOnlyCounters : Prop :=
  ∀ s t : State, running s → s.rd.phase = .idle → s.dp.busy = false → hostNext s.env.program = some .idle →
    step s = .next t → t = { s with timer := t.timer, lineQ := t.lineQ, env := t.env }

/-- 40_commands.md R101; 44_dewpoint.md R213: the read unit, its registers and the pulse timer do not depend on the
dew-point unit or on the interrupt registers, nor the dew-point unit on them. -/
def Obligations.UnitsAreIndependent : Prop :=
  ∀ s t t' : State, step s = .next t →
    (∀ (d : DpUnit) (h : HostIf), step { s with dp := d, hif := h } = .next t' →
      t'.rd = t.rd ∧ t'.timing = t.timing ∧ t'.timer = t.timer ∧ t'.lineQ = t.lineQ) ∧
    (∀ (r : ReadUnit) (tm : Timing) (p : PulseTimer) (q : Bool) (h : HostIf),
      step { s with rd := r, timing := tm, timer := p, lineQ := q, hif := h } = .next t' → t'.dp = t.dp)

/-- 40_commands.md R108; 41_pulse_timer_edge_waiter.md R127: while a unit is busy, no host operation changes what it
does in a cycle. -/
def Obligations.BusyUnitsIgnoreTheHost : Prop :=
  ∀ (s t t' : State) (prog : List HostCmd), running s → step s = .next t →
    step { s with env := { s.env with program := prog } } = .next t' →
    (s.rd.phase ≠ .idle → t'.rd = t.rd ∧ t'.timing = t.timing) ∧ (s.dp.busy = true → t'.dp = t.dp)

/-- 10_state.md R55 with 60_exceptions.md R231: the invariant holds after reset, for every instance in range. -/
def Obligations.InvariantHoldsAtReset : Prop :=
  Inv State.reset ∧ ∀ p : Params, p.wf → Inv (State.resetWith p)

/-- 10_state.md R55 with 60_exceptions.md R231 and 44_dewpoint.md R208: from every state that meets the invariant, every
step leads to one that meets it. -/
def Obligations.EveryStepKeepsTheInvariant : Prop :=
  ∀ s t : State, Inv s → step s = .next t → Inv t

/-- 70_reset_and_hazards.md R287: a transaction just accepted completes within N_max · (TICK_DIV + 1) cycles, on every
line and with every host, with a code of R230 and RD_DONE. -/
def Obligations.TransactionEndsWithinItsBound : Prop :=
  ∀ s : State, Inv s → running s → noReset s → hostOk s → s.rd.phase = .check →
    ∃ n t, 1 ≤ n ∧ n ≤ nMax s.timing * (s.timing.tickDiv.toNat + 1) ∧
      Host.Core.run Sys2Proof.core n s = .next t ∧ t.rd.phase = .idle ∧ t.rd.lastCode ≠ .none ∧
      t.hif.intPend.getLsbD 0 = true ∧
      ∀ k < n, ∃ u, Host.Core.run Sys2Proof.core k s = .next u ∧ u.rd.phase ≠ .idle
end

