-- ==== Sys2Proof/Laws/Decode.lean ====
section
/-! SUPPORT. Lemmas about the decoder and the encoder (30_encoding.md R80-R83). -/

namespace Sys2Proof

/-- RSV of a command's word is zero. -/
@[simp] theorem rsvField_encode (i : Instr) : rsvField (encode i) = 0 := by cases i <;> rfl

/-- OP of a command's word is its opcode. -/
@[simp] theorem opField_encode (i : Instr) : opField (encode i) = opcode i := by cases i <;> rfl

/-- A word is its two fields. -/
theorem word_eq_fields (w : Word) : w = rsvField w ++ opField w := by
  apply BitVec.eq_of_toNat_eq
  simp only [rsvField, opField, BitVec.toNat_append, BitVec.extractLsb'_toNat, Nat.shiftLeft_eq, Nat.shiftRight_eq_div_pow]
  rw [← Nat.shiftLeft_eq, ← Nat.shiftLeft_add_eq_or_of_lt (by omega), Nat.shiftLeft_eq]
  omega

/-- What decoding answers, by the two fields. -/
theorem decode_cases (w : Word) :
    (rsvField w ≠ 0 ∧ decode w = .error .reservedBits) ∨
    (rsvField w = 0 ∧ 4 ≤ (opField w).toNat ∧ decode w = .error .reservedOpcode) ∨
    (∃ i, rsvField w = 0 ∧ opField w = opcode i ∧ decode w = .ok i) := by
  by_cases h : rsvField w = 0
  · refine .inr ?_
    rw [decode, if_neg (not_not.mpr h)]
    split
    · rename_i e; exact .inr ⟨.nop, h, BitVec.eq_of_toNat_eq e, rfl⟩
    · rename_i e; exact .inr ⟨.read, h, BitVec.eq_of_toNat_eq e, rfl⟩
    · rename_i e; exact .inr ⟨.dpPrecise, h, BitVec.eq_of_toNat_eq e, rfl⟩
    · rename_i e; exact .inr ⟨.dpFast, h, BitVec.eq_of_toNat_eq e, rfl⟩
    · rename_i n0 n1 n2 n3
      refine .inl ⟨h, ?_, rfl⟩
      by_contra hlt
      have := (opField w).isLt
      generalize (opField w).toNat = n at *
      interval_cases n <;> simp_all
  · exact .inl ⟨h, if_pos h⟩

end Sys2Proof
end

