-- ==== Sys2Proof/Laws/State.lean ====
section
/-! SUPPORT. What each named update of the state does to each component, true by rfl, so that no later proof unfolds a
record update. -/

namespace Sys2Proof.Machine

/-! Host errors (60_exceptions.md R236). -/

@[simp] theorem hostError_params (c : Cause) (s : State) :
    (hostError c s).params = s.params := rfl

@[simp] theorem hostError_timing (c : Cause) (s : State) :
    (hostError c s).timing = s.timing := rfl

@[simp] theorem hostError_rd (c : Cause) (s : State) :
    (hostError c s).rd = s.rd := rfl

@[simp] theorem hostError_dp (c : Cause) (s : State) :
    (hostError c s).dp = s.dp := rfl

@[simp] theorem hostError_timer (c : Cause) (s : State) :
    (hostError c s).timer = s.timer := rfl

@[simp] theorem hostError_hif (c : Cause) (s : State) :
    (hostError c s).hif = { (s.hif.raise hostErrBit) with cause := c } := rfl

@[simp] theorem hostError_lineQ (c : Cause) (s : State) :
    (hostError c s).lineQ = s.lineQ := rfl

@[simp] theorem hostError_env (c : Cause) (s : State) :
    (hostError c s).env = s.env := rfl

/-! The units advancing (20_memory.md R66). -/

@[simp] theorem advance_params (s s1 : State) (o : BusOut) :
    (advance s s1 o).params = s1.params := rfl

@[simp] theorem advance_timing (s s1 : State) (o : BusOut) :
    (advance s s1 o).timing = s1.timing := rfl

@[simp] theorem advance_rd (s s1 : State) (o : BusOut) :
    (advance s s1 o).rd = (readAfter s s1).1 := rfl

@[simp] theorem advance_dp (s s1 : State) (o : BusOut) :
    (advance s s1 o).dp = (dpAfter s s1).1 := rfl

@[simp] theorem advance_timer (s s1 : State) (o : BusOut) :
    (advance s s1 o).timer = timerStep (isTick s.timing s.timer) s.timer := rfl

@[simp] theorem advance_hif (s s1 : State) (o : BusOut) :
    (advance s s1 o).hif = s1.hif.raise (doneSet (readAfter s s1).2 (dpAfter s s1).2) := rfl

@[simp] theorem advance_lineQ (s s1 : State) (o : BusOut) :
    (advance s s1 o).lineQ = lineNow s.env := rfl

@[simp] theorem advance_env (s s1 : State) (o : BusOut) :
    (advance s s1 o).env = nextEnv s.env o := rfl

/-! A reset cycle (70_reset_and_hazards.md R270). -/

@[simp] theorem resetCycle_params (s : State) :
    (resetCycle s).params = s.params := rfl

@[simp] theorem resetCycle_timing (s : State) :
    (resetCycle s).timing = Timing.resetWith s.params := rfl

@[simp] theorem resetCycle_rd (s : State) :
    (resetCycle s).rd = ReadUnit.atReset := rfl

@[simp] theorem resetCycle_dp (s : State) :
    (resetCycle s).dp = DpUnit.atReset := rfl

@[simp] theorem resetCycle_timer (s : State) :
    (resetCycle s).timer = { presc := 0, usCount := 0 } := rfl

@[simp] theorem resetCycle_hif (s : State) :
    (resetCycle s).hif = { intEn := 0, intPend := 0, cause := .none } := rfl

@[simp] theorem resetCycle_lineQ (s : State) :
    (resetCycle s).lineQ = true := rfl

@[simp] theorem resetCycle_env (s : State) :
    (resetCycle s).env = { nextEnv s.env (busReplyInReset ((hostNext s.env.program).getD .idle)) with wasReset := true } := rfl

/-! The inputs after a cycle. -/

@[simp] theorem nextEnv_clk (e : Env) (o : BusOut) : (nextEnv e o).clk = e.clk + 1 := rfl

@[simp] theorem nextEnv_wasReset (e : Env) (o : BusOut) : (nextEnv e o).wasReset = e.wasReset := rfl

@[simp] theorem nextEnv_program (e : Env) (o : BusOut) : (nextEnv e o).program = hostAfter (replyData o) e.program := rfl

@[simp] theorem nextEnv_lineIn (e : Env) (o : BusOut) : (nextEnv e o).lineIn = e.lineIn.tail := rfl

@[simp] theorem nextEnv_rstIn (e : Env) (o : BusOut) : (nextEnv e o).rstIn = e.rstIn.tail := rfl

@[simp] theorem nextEnv_busOut (e : Env) (o : BusOut) : (nextEnv e o).busOut = o := rfl

@[simp] theorem nextEnv_busFaults (e : Env) (o : BusOut) : (nextEnv e o).busFaults = faultsAfter e o := rfl

/-! The interrupt registers (20_memory.md R68). -/

@[simp] theorem HostIf.raise_intEn (h : HostIf) (set : BitVec 3) : (h.raise set).intEn = h.intEn := rfl

@[simp] theorem HostIf.raise_intPend (h : HostIf) (set : BitVec 3) : (h.raise set).intPend = h.intPend ||| set := rfl

@[simp] theorem HostIf.raise_cause (h : HostIf) (set : BitVec 3) : (h.raise set).cause = h.cause := rfl

@[simp] theorem HostIf.clear_intEn (h : HostIf) (w : BitVec 3) : (h.clear w).intEn = h.intEn := rfl

@[simp] theorem HostIf.clear_intPend (h : HostIf) (w : BitVec 3) : (h.clear w).intPend = h.intPend &&& ~~~w := rfl

@[simp] theorem HostIf.clear_cause (h : HostIf) (w : BitVec 3) : (h.clear w).cause = h.cause := rfl

/-! The start of a transaction (40_commands.md R103). -/

@[simp] theorem ReadUnit.accept_phase (r : ReadUnit) : r.accept.phase = .check := rfl

@[simp] theorem ReadUnit.accept_cnt (r : ReadUnit) : r.accept.cnt = 0 := rfl

@[simp] theorem ReadUnit.accept_bitcnt (r : ReadUnit) : r.accept.bitcnt = 0 := rfl

@[simp] theorem ReadUnit.accept_shift (r : ReadUnit) : r.accept.shift = 0 := rfl

@[simp] theorem ReadUnit.accept_raw (r : ReadUnit) : r.accept.raw = Frame.zero := rfl

@[simp] theorem ReadUnit.accept_rawFull (r : ReadUnit) : r.accept.rawFull = false := rfl

@[simp] theorem ReadUnit.accept_valid (r : ReadUnit) : r.accept.valid = r.valid := rfl

@[simp] theorem ReadUnit.accept_haveValid (r : ReadUnit) : r.accept.haveValid = r.haveValid := rfl

@[simp] theorem ReadUnit.accept_lastCode (r : ReadUnit) : r.accept.lastCode = r.lastCode := rfl

@[simp] theorem ReadUnit.accept_lastPhase (r : ReadUnit) : r.accept.lastPhase = r.lastPhase := rfl

@[simp] theorem ReadUnit.accept_lastBits (r : ReadUnit) : r.accept.lastBits = r.lastBits := rfl

/-! The end of a transaction (42_frame_decoder.md R141). -/

@[simp] theorem complete_phase (c : Code) (r : ReadUnit) : (complete c r).1.phase = .idle := rfl

@[simp] theorem complete_cnt (c : Code) (r : ReadUnit) : (complete c r).1.cnt = r.cnt := rfl

@[simp] theorem complete_bitcnt (c : Code) (r : ReadUnit) : (complete c r).1.bitcnt = r.bitcnt := rfl

@[simp] theorem complete_shift (c : Code) (r : ReadUnit) : (complete c r).1.shift = r.shift := rfl

@[simp] theorem complete_raw (c : Code) (r : ReadUnit) : (complete c r).1.raw = r.raw := rfl

@[simp] theorem complete_rawFull (c : Code) (r : ReadUnit) : (complete c r).1.rawFull = r.rawFull := rfl

@[simp] theorem complete_valid (c : Code) (r : ReadUnit) : (complete c r).1.valid = r.valid := rfl

@[simp] theorem complete_haveValid (c : Code) (r : ReadUnit) : (complete c r).1.haveValid = r.haveValid := rfl

@[simp] theorem complete_lastCode (c : Code) (r : ReadUnit) : (complete c r).1.lastCode = c := rfl

@[simp] theorem complete_lastPhase (c : Code) (r : ReadUnit) : (complete c r).1.lastPhase = r.phase := rfl

@[simp] theorem complete_lastBits (c : Code) (r : ReadUnit) : (complete c r).1.lastBits = r.bitcnt := rfl

@[simp] theorem complete_done (c : Code) (r : ReadUnit) : (complete c r).2 = true := rfl

/-! Phase movement, `enter` (41_pulse_timer_edge_waiter.md R122-R124). -/

@[simp] theorem enter_phase (p : Phase) (r : ReadUnit) : (enter p r).1.phase = p := rfl

@[simp] theorem enter_cnt (p : Phase) (r : ReadUnit) : (enter p r).1.cnt = 0 := rfl

@[simp] theorem enter_bitcnt (p : Phase) (r : ReadUnit) : (enter p r).1.bitcnt = r.bitcnt := rfl

@[simp] theorem enter_shift (p : Phase) (r : ReadUnit) : (enter p r).1.shift = r.shift := rfl

@[simp] theorem enter_raw (p : Phase) (r : ReadUnit) : (enter p r).1.raw = r.raw := rfl

@[simp] theorem enter_rawFull (p : Phase) (r : ReadUnit) : (enter p r).1.rawFull = r.rawFull := rfl

@[simp] theorem enter_valid (p : Phase) (r : ReadUnit) : (enter p r).1.valid = r.valid := rfl

@[simp] theorem enter_haveValid (p : Phase) (r : ReadUnit) : (enter p r).1.haveValid = r.haveValid := rfl

@[simp] theorem enter_lastCode (p : Phase) (r : ReadUnit) : (enter p r).1.lastCode = r.lastCode := rfl

@[simp] theorem enter_lastPhase (p : Phase) (r : ReadUnit) : (enter p r).1.lastPhase = r.lastPhase := rfl

@[simp] theorem enter_lastBits (p : Phase) (r : ReadUnit) : (enter p r).1.lastBits = r.lastBits := rfl

@[simp] theorem enter_done (p : Phase) (r : ReadUnit) : (enter p r).2 = false := rfl

/-! Phase movement, `stay` (41_pulse_timer_edge_waiter.md R122-R124). -/

@[simp] theorem stay_phase (r : ReadUnit) : (stay r).1.phase = r.phase := rfl

@[simp] theorem stay_cnt (r : ReadUnit) : (stay r).1.cnt = r.cnt + 1 := rfl

@[simp] theorem stay_bitcnt (r : ReadUnit) : (stay r).1.bitcnt = r.bitcnt := rfl

@[simp] theorem stay_shift (r : ReadUnit) : (stay r).1.shift = r.shift := rfl

@[simp] theorem stay_raw (r : ReadUnit) : (stay r).1.raw = r.raw := rfl

@[simp] theorem stay_rawFull (r : ReadUnit) : (stay r).1.rawFull = r.rawFull := rfl

@[simp] theorem stay_valid (r : ReadUnit) : (stay r).1.valid = r.valid := rfl

@[simp] theorem stay_haveValid (r : ReadUnit) : (stay r).1.haveValid = r.haveValid := rfl

@[simp] theorem stay_lastCode (r : ReadUnit) : (stay r).1.lastCode = r.lastCode := rfl

@[simp] theorem stay_lastPhase (r : ReadUnit) : (stay r).1.lastPhase = r.lastPhase := rfl

@[simp] theorem stay_lastBits (r : ReadUnit) : (stay r).1.lastBits = r.lastBits := rfl

@[simp] theorem stay_done (r : ReadUnit) : (stay r).2 = false := rfl

/-! Dew-point acceptance (40_commands.md R105). -/

@[simp] theorem DpUnit.accept_dpIn (d : DpUnit) (m : DpMode) (l : Byte) : (d.accept m l).dpIn = d.dpIn := rfl

@[simp] theorem DpUnit.accept_busy (d : DpUnit) (m : DpMode) (l : Byte) : (d.accept m l).busy = true := rfl

@[simp] theorem DpUnit.accept_cnt (d : DpUnit) (m : DpMode) (l : Byte) : (d.accept m l).cnt = l := rfl

@[simp] theorem DpUnit.accept_modeL (d : DpUnit) (m : DpMode) (l : Byte) : (d.accept m l).modeL = m := rfl

@[simp] theorem DpUnit.accept_op (d : DpUnit) (m : DpMode) (l : Byte) : (d.accept m l).op = d.dpIn := rfl

@[simp] theorem DpUnit.accept_td10 (d : DpUnit) (m : DpMode) (l : Byte) : (d.accept m l).td10 = d.td10 := rfl

@[simp] theorem DpUnit.accept_domain (d : DpUnit) (m : DpMode) (l : Byte) : (d.accept m l).domain = d.domain := rfl

@[simp] theorem DpUnit.accept_range (d : DpUnit) (m : DpMode) (l : Byte) : (d.accept m l).range = d.range := rfl

@[simp] theorem DpUnit.accept_sat (d : DpUnit) (m : DpMode) (l : Byte) : (d.accept m l).sat = d.sat := rfl

@[simp] theorem DpUnit.accept_mode (d : DpUnit) (m : DpMode) (l : Byte) : (d.accept m l).mode = d.mode := rfl

@[simp] theorem DpUnit.accept_done (d : DpUnit) (m : DpMode) (l : Byte) : (d.accept m l).done = d.done := rfl

/-! Dew-point completion (44_dewpoint.md R215). -/

@[simp] theorem completeDp_dpIn (d : DpUnit) : (completeDp d).dpIn = d.dpIn := rfl

@[simp] theorem completeDp_busy (d : DpUnit) : (completeDp d).busy = false := rfl

@[simp] theorem completeDp_cnt (d : DpUnit) : (completeDp d).cnt = d.cnt := rfl

@[simp] theorem completeDp_modeL (d : DpUnit) : (completeDp d).modeL = d.modeL := rfl

@[simp] theorem completeDp_op (d : DpUnit) : (completeDp d).op = d.op := rfl

@[simp] theorem completeDp_td10 (d : DpUnit) : (completeDp d).td10 = toHalf (dpResult d.modeL d.op).td := rfl

@[simp] theorem completeDp_domain (d : DpUnit) : (completeDp d).domain = (dpResult d.modeL d.op).domain := rfl

@[simp] theorem completeDp_range (d : DpUnit) : (completeDp d).range = (dpResult d.modeL d.op).range := rfl

@[simp] theorem completeDp_sat (d : DpUnit) : (completeDp d).sat = (dpResult d.modeL d.op).sat := rfl

@[simp] theorem completeDp_mode (d : DpUnit) : (completeDp d).mode = d.modeL := rfl

@[simp] theorem completeDp_done (d : DpUnit) : (completeDp d).done = true := rfl

end Sys2Proof.Machine
end

