-- ==== Sys2Proof/Laws/Registers.lean ====
section
/-! SUPPORT. Lemmas about the register map: which register stands at which offset (10_state.md R24-R47). -/

namespace Sys2Proof.Machine

/-- Each register is found at its own offset. -/
@[simp] theorem regAt_offsetOf (r : Reg) : regAt (offsetOf r) = some r := by
  cases r with
  | timing k => cases k <;> rfl
  | _ => rfl

/-- Each register's offset is aligned. -/
@[simp] theorem aligned_offsetOf (r : Reg) : aligned (offsetOf r) = true := by
  cases r with
  | timing k => cases k <;> rfl
  | _ => rfl

/-- Two registers at the same offset are the same. -/
theorem offsetOf_inj {r r' : Reg} (h : offsetOf r = offsetOf r') : r = r' := by
  simpa using congrArg regAt h

/-- A register found at an offset has that offset. -/
theorem offsetOf_of_regAt {off : Offset} {r : Reg} (h : regAt off = some r) : offsetOf r = off := by
  unfold regAt at h
  split at h <;> try cases h
  all_goals (rename_i e; exact BitVec.eq_of_toNat_eq e.symm)

/-- An offset with a register is aligned. -/
theorem aligned_of_regAt {off : Offset} {r : Reg} (h : regAt off = some r) : aligned off = true := by
  rw [← offsetOf_of_regAt h]; simp

/-- A misaligned offset has no register. -/
theorem regAt_of_misaligned {off : Offset} (h : aligned off = false) : regAt off = none := by
  cases e : regAt off with
  | none => rfl
  | some r => exact absurd (aligned_of_regAt e) (by simp [h])

/-- Alignment in terms of the offset's value (20_memory.md R63). -/
theorem aligned_iff (off : Offset) : aligned off = true ↔ off.toNat % 4 = 0 := by
  have h := off.isLt
  simp only [aligned, decide_eq_true_eq]
  constructor
  · intro e
    have := congrArg BitVec.toNat e
    simpa [BitVec.extractLsb'_toNat] using this
  · intro e
    apply BitVec.eq_of_toNat_eq
    simpa [BitVec.extractLsb'_toNat] using e

/-- Writing a timing register: the written register holds the value, every other one its own. -/
theorem Timing.get_set (t : Timing) (v : Half) (k k' : TimingReg) :
    (t.set v k).get k' = if k' = k then v else t.get k' := by
  cases k <;> cases k' <;> rfl

end Sys2Proof.Machine
end

