-- ==== Sys2Proof/Laws/Cycle.lean ====
section
/-! SUPPORT. What a host operation and a cycle can do, said once: `hostStep_effect` and `step_next_cases`. -/

namespace Sys2Proof.Machine

/-- Everything a host operation can do to the pre-state `s` (20_memory.md R65, R67; 40_commands.md R100). -/
inductive HostEffect (s : State) : State → Prop where
  /-- Nothing: a read, no operation, NOP, an ignored or a misaligned write. -/
  | same : HostEffect s s
  /-- A host error, with its cause. -/
  | error (c : Cause) : HostEffect s (hostError c s)
  /-- A write to INT_EN. -/
  | intEn (v : BitVec 3) : HostEffect s { s with hif := { s.hif with intEn := v } }
  /-- A write to INT_PEND. -/
  | clear (v : BitVec 3) : HostEffect s { s with hif := s.hif.clear v }
  /-- An accepted write to a timing register. -/
  | timing (k : TimingReg) (v : Half) (h : rdBusy s.rd = false) :
      HostEffect s { s with timing := s.timing.set v k }
  /-- An accepted write to DP_IN. -/
  | dpIn (v : Word) (h : s.dp.busy = false) : HostEffect s { s with dp := { s.dp with dpIn := v } }
  /-- An accepted READ. -/
  | read (h : rdBusy s.rd = false) : HostEffect s { s with rd := s.rd.accept }
  /-- An accepted dew-point command. -/
  | dp (m : DpMode) (h : s.dp.busy = false) :
      HostEffect s { s with dp := s.dp.accept m (latencyOf s.params m) }

theorem startRead_effect (s : State) : HostEffect s (startRead s) := by
  unfold startRead; split
  · exact .error _
  · exact .read (by simp_all)

theorem startDp_effect (m : DpMode) (s : State) : HostEffect s (startDp m s) := by
  unfold startDp; split
  · exact .error _
  · exact .dp m (by simp_all)

theorem writeReg_effect (s : State) (data : Word) (r : Reg) : HostEffect s (writeReg s data r) := by
  cases r with
  | intEn => exact .intEn _
  | intPend => exact .clear _
  | timing k =>
    show HostEffect s (writeTiming k data s)
    unfold writeTiming; split
    · exact .error _
    · exact .timing k _ (by simp_all)
  | dpIn =>
    show HostEffect s (writeDpIn data s)
    unfold writeDpIn; split
    · exact .error _
    · exact .dpIn _ (by simp_all)
  | _ => exact .same

/-- A command answers a next state, with one of the host's effects. -/
theorem exec_effect (i : Instr) (s : State) : ∃ s1, exec i s = .next s1 ∧ HostEffect s s1 := by
  cases i with
  | nop => exact ⟨s, rfl, .same⟩
  | read => exact ⟨_, rfl, startRead_effect s⟩
  | dpPrecise => exact ⟨_, rfl, startDp_effect .precise s⟩
  | dpFast => exact ⟨_, rfl, startDp_effect .fast s⟩

/-- A CMD write answers a next state, with one of the host's effects. -/
theorem command_effect (s : State) (w : Word) : ∃ s1, command s w = .next s1 ∧ HostEffect s s1 := by
  unfold command; split
  · exact exec_effect _ s
  · exact ⟨_, rfl, .error _⟩

/-- A write of the bus, unfolded once (20_memory.md R63, R65). -/
theorem hostStep_wr (s : State) (off : Offset) (data : Word) : hostStep s (.wr off data) =
    if aligned off then
      match regAt off with
      | some .cmd => command s data
      | some r => .next (writeReg s data r)
      | none => .next s
    else .next s := rfl

/-- A CMD write is a command. -/
theorem hostStep_cmd (s : State) (w : Word) : hostStep s (.wr (offsetOf .cmd) w) = command s w := rfl

/-- A write to a register other than CMD. -/
theorem hostStep_reg (s : State) (data : Word) {r : Reg} (h : r ≠ .cmd) :
    hostStep s (.wr (offsetOf r) data) = .next (writeReg s data r) := by
  rw [hostStep_wr, aligned_offsetOf, regAt_offsetOf, if_pos rfl]
  cases r <;> first | rfl | exact absurd rfl h

/-- A host operation answers a next state, with one of the host's effects. -/
theorem hostStep_effect (s : State) (op : HostOp) : ∃ s1, hostStep s op = .next s1 ∧ HostEffect s s1 := by
  cases op with
  | idle => exact ⟨s, rfl, .same⟩
  | rd off => exact ⟨s, rfl, .same⟩
  | wr off data =>
    rw [hostStep_wr]
    split
    · split
      · exact command_effect s data
      · exact ⟨_, rfl, writeReg_effect s data _⟩
      · exact ⟨s, rfl, .same⟩
    · exact ⟨s, rfl, .same⟩

/-- Everything a step that answers a next state can be: a reset cycle, or a host operation and the units' advance. -/
theorem step_next_cases {s t : State} (h : step s = .next t) :
    (rstNow s.env = true ∧ t = resetCycle s) ∨
    (running s ∧ ∃ op s1, hostNext s.env.program = some op ∧ hostStep s op = .next s1 ∧ HostEffect s s1 ∧
      t = advance s s1 (busReply s op)) := by
  unfold step cycle at h
  split at h
  · cases h; exact .inl ⟨‹_›, rfl⟩
  · split at h
    · split at h
      · rename_i hr hw _ op hop
        obtain ⟨s1, h1, e1⟩ := hostStep_effect s op
        rw [h1] at h
        cases h
        exact .inr ⟨⟨by simpa using hr, hw⟩, op, s1, hop, h1, e1, rfl⟩
      · cases h
    · cases h

/-- A running step with a host operation: the operation, then the units. -/
theorem step_of_host {s s1 : State} {op : HostOp} (hr : running s) (hop : hostNext s.env.program = some op)
    (h1 : hostStep s op = .next s1) : step s = .next (advance s s1 (busReply s op)) := by
  simp only [step, cycle, hr.1, hr.2, hop, h1, thenAdvance, if_true, Bool.false_eq_true, if_false]

/-- A step with `rst` = 1. -/
theorem step_of_reset {s : State} (h : rstNow s.env = true) : step s = .next (resetCycle s) := by
  simp only [step, cycle, h, if_true]

/-- A host program without narrower accesses always has a bus operation. -/
theorem hostNext_of_ok {p : List HostCmd} (h : ∀ c ∈ p, c.wf = true) : ∃ op, hostNext p = some op := by
  induction p with
  | nil => exact ⟨.idle, rfl⟩
  | cons c rest ih =>
    cases c with
    | idle n =>
      cases n with
      | zero => exact ih fun c hc => h c (List.mem_cons_of_mem _ hc)
      | succ n => exact ⟨.idle, rfl⟩
    | narrow off bytes => exact absurd (h _ List.mem_cons_self) (by simp [HostCmd.wf])
    | rd off => exact ⟨_, rfl⟩
    | wr off data => exact ⟨_, rfl⟩
    | poll off mask val => exact ⟨_, rfl⟩

/-- A cycle makes no new host lines, except a shorter IDLE. -/
theorem mem_hostAfter {c : HostCmd} {data : Word} {p : List HostCmd} (h : c ∈ hostAfter data p) :
    c ∈ p ∨ ∃ n, c = .idle n := by
  induction p with
  | nil => exact .inl h
  | cons x rest ih =>
    cases x with
    | idle n =>
      cases n with
      | zero => exact (ih h).imp_left (List.mem_cons_of_mem _)
      | succ n =>
        simp only [hostAfter] at h
        split at h
        · exact .inl (List.mem_cons_of_mem _ h)
        · rcases List.mem_cons.mp h with h | h
          · exact .inr ⟨n, h⟩
          · exact .inl (List.mem_cons_of_mem _ h)
    | poll off mask val =>
      simp only [hostAfter] at h
      split at h
      · exact .inl (List.mem_cons_of_mem _ h)
      · exact .inl h
    | rd off => exact .inl (List.mem_cons_of_mem _ h)
    | wr off data => exact .inl (List.mem_cons_of_mem _ h)
    | narrow off bytes => exact .inl (List.mem_cons_of_mem _ h)

/-- A host program stays without narrower accesses. -/
theorem hostAfter_ok {data : Word} {p : List HostCmd} (h : ∀ c ∈ p, c.wf = true) :
    ∀ c ∈ hostAfter data p, c.wf = true := fun c hc => by
  rcases mem_hostAfter hc with hc | ⟨n, rfl⟩
  · exact h c hc
  · rfl

/-- A running step of an allowed host program answers a next state. -/
theorem step_next_of_running {s : State} (hr : running s) (hok : hostOk s) : ∃ t, step s = .next t := by
  obtain ⟨op, hop⟩ := hostNext_of_ok hok
  obtain ⟨s1, h1, -⟩ := hostStep_effect s op
  exact ⟨_, step_of_host hr hop h1⟩

/-- No reset to come: `rst` is low now. -/
theorem rstNow_of_noReset {s : State} (h : noReset s) : rstNow s.env = false := by
  unfold rstNow; split
  · rfl
  · rename_i b rest e; exact h b (by rw [e]; exact List.mem_cons_self)

/-- Where no reset is to come, none is to come after a step. -/
theorem noReset_step {s t : State} (h : noReset s) (hs : step s = .next t) : noReset t := by
  rcases step_next_cases hs with ⟨hr, -⟩ | ⟨-, op, s1, -, -, -, rfl⟩
  · exact absurd hr (by simp [rstNow_of_noReset h])
  · intro b hb; exact h b (List.mem_of_mem_tail hb)

/-- An allowed host program stays allowed. -/
theorem hostOk_step {s t : State} (h : hostOk s) (hs : step s = .next t) : hostOk t := by
  rcases step_next_cases hs with ⟨-, rfl⟩ | ⟨-, op, s1, -, -, -, rfl⟩
  · exact hostAfter_ok h
  · exact hostAfter_ok h

/-- Once `rst` has been asserted it has been asserted. -/
theorem wasReset_step {s t : State} (hs : step s = .next t) : t.env.wasReset = true := by
  rcases step_next_cases hs with ⟨-, rfl⟩ | ⟨hr, op, s1, -, -, -, rfl⟩
  · rfl
  · exact hr.2

/-- A run of k + 1 steps whose first step is known. -/
theorem run_succ_of_step {k : Nat} {s t : State} (h : step s = .next t) :
    Host.Core.run Sys2Proof.core (k + 1) s = Host.Core.run Sys2Proof.core k t := by
  have h' : Sys2Proof.core.step s = .next t := h
  simp only [Host.Core.run, h']

end Sys2Proof.Machine
end

