-- ==== Sys2Proof/Laws/Decoder.lean ====
section
/-! SUPPORT. Everything a tick of the frame decoder can do (42_frame_decoder.md R140-R152), said once, and that it
keeps the read unit's invariant. -/

namespace Sys2Proof.Machine

/-- The phase a transaction may enter next, and the bit count it then has (42_frame_decoder.md R140). -/
inductive Enters (r : ReadUnit) : Phase → Prop where
  | stab (h : r.phase = .check) : Enters r .stab
  | start (h : r.phase = .stab) : Enters r .start
  | wPres (h : r.phase = .start) : Enters r .wPres
  | wSyncL (h : r.phase = .wPres) : Enters r .wSyncL
  | wSyncH (h : r.phase = .wSyncL) : Enters r .wSyncH
  | bLow (h : r.phase = .wSyncH) : Enters r .bLow
  | nextBit (h : r.phase = .bHigh) (hb : r.bitcnt.toNat < 40) : Enters r .bLow
  | bSample (h : r.phase = .bLow) : Enters r .bSample

/-- The failure a phase can report (42_frame_decoder.md R154). -/
inductive Fails (tm : Timing) (r : ReadUnit) : Code → Prop where
  | busBusy (h : r.phase = .check) : Fails tm r .busBusy
  | badStart (h : r.phase = .start) : Fails tm r .badStart
  | notDetected (h : r.phase = .wPres) (hc : tm.toPres.toNat ≤ r.cnt.toNat) : Fails tm r .notDetected
  | syncTimeout (h : r.phase = .wSyncL) (hc : tm.toSyncL.toNat ≤ r.cnt.toNat) : Fails tm r .syncTimeout
  | overlyFast (h : r.phase = .wSyncH) (hc : tm.toSyncH.toNat ≤ r.cnt.toNat) : Fails tm r .overlyFast
  | lowTimeout (h : r.phase = .bLow) (hc : tm.toBitL.toNat ≤ r.cnt.toNat) : Fails tm r .dataTimeout
  | highTimeout (h : r.phase = .bHigh) (hc : tm.toBitH.toNat ≤ r.cnt.toNat) : Fails tm r .dataTimeout

/-- The phases in which a tick may only count, with room left in CNT. -/
inductive Waits (tm : Timing) (r : ReadUnit) : Prop where
  | stab (h : r.phase = .stab) (hc : r.cnt.toNat + 1 < tm.tStab.toNat)
  | start (h : r.phase = .start) (hc : r.cnt.toNat + 1 < tm.tStart.toNat)
  | wPres (h : r.phase = .wPres) (hc : r.cnt.toNat < tm.toPres.toNat)
  | wSyncL (h : r.phase = .wSyncL) (hc : r.cnt.toNat < tm.toSyncL.toNat)
  | wSyncH (h : r.phase = .wSyncH) (hc : r.cnt.toNat < tm.toSyncH.toNat)
  | bLow (h : r.phase = .bLow) (hc : r.cnt.toNat < tm.toBitL.toNat)
  | bSample (h : r.phase = .bSample) (hc : r.cnt.toNat + 1 < tm.tSample.toNat)
  | bHigh (h : r.phase = .bHigh) (hc : r.cnt.toNat < tm.toBitH.toNat)

/-- Everything a tick can do to a read unit with PHASE ≠ IDLE. -/
inductive TickEffect (tm : Timing) (r : ReadUnit) (line : Bool) : ReadUnit × Bool → Prop where
  /-- CNT counts. -/
  | count (h : Waits tm r) : TickEffect tm r line (stay r)
  /-- The next phase is entered. -/
  | next (p : Phase) (h : Enters r p) : TickEffect tm r line (enter p r)
  /-- A bit is sampled. -/
  | sample (h : r.phase = .bSample) (hc : tm.tSample.toNat ≤ r.cnt.toNat + 1) :
      TickEffect tm r line (enter .bHigh { r with shift := shiftIn r.shift line, bitcnt := r.bitcnt + 1 })
  /-- A phase fails. -/
  | fail (c : Code) (h : Fails tm r c) : TickEffect tm r line (complete c r)
  /-- The frame is packed and validated. -/
  | finish (h : r.phase = .bHigh) (hb : 40 ≤ r.bitcnt.toNat) (hl : line = false) :
      TickEffect tm r line (finishFrame r)

theorem hold_cases (n cnt : Half) :
    (hold n cnt = .done ∧ n.toNat ≤ cnt.toNat + 1) ∨ (hold n cnt = .waiting ∧ cnt.toNat + 1 < n.toNat) := by
  unfold hold; split
  · exact .inl ⟨rfl, ‹_›⟩
  · exact .inr ⟨rfl, by omega⟩

theorem waitLevel_cases (level : Bool) (bound : Half) (line : Bool) (cnt : Half) :
    (waitLevel level bound line cnt = .seen ∧ line = level) ∨
    (waitLevel level bound line cnt = .timeout ∧ line ≠ level ∧ bound.toNat ≤ cnt.toNat) ∨
    (waitLevel level bound line cnt = .waiting ∧ line ≠ level ∧ cnt.toNat < bound.toNat) := by
  unfold waitLevel; split
  · exact .inl ⟨rfl, ‹_›⟩
  · split
    · exact .inr (.inl ⟨rfl, ‹_›, ‹_›⟩)
    · exact .inr (.inr ⟨rfl, ‹_›, by omega⟩)

/-- A wait phase enters its next phase, fails, or counts. -/
theorem waitThen_cases (level : Bool) (bound : Half) (next : Phase) (code : Code) (r : ReadUnit) (line : Bool) :
    (waitThen level bound next code r line = enter next r ∧ line = level) ∨
    (waitThen level bound next code r line = complete code r ∧ line ≠ level ∧ bound.toNat ≤ r.cnt.toNat) ∨
    (waitThen level bound next code r line = stay r ∧ line ≠ level ∧ r.cnt.toNat < bound.toNat) := by
  unfold waitThen
  rcases waitLevel_cases level bound line r.cnt with ⟨e, h⟩ | ⟨e, h⟩ | ⟨e, h⟩ <;> rw [e] <;> simp [h]

/-- A tick in a phase other than IDLE has one of the effects. -/
theorem frameStep_effect (tm : Timing) (r : ReadUnit) (line : Bool) (hp : r.phase ≠ .idle) :
    TickEffect tm r line (frameStep tm r line) := by
  unfold frameStep
  split
  case h_1 h => exact absurd h hp
  case h_2 h =>
    unfold stepCheck; split
    · exact .next _ (.stab h)
    · exact .fail _ (.busBusy h)
  case h_3 h =>
    unfold stepStab
    rcases hold_cases tm.tStab r.cnt with ⟨e, -⟩ | ⟨e, hc⟩ <;> rw [e]
    · exact .next _ (.start h)
    · exact .count (.stab h hc)
  case h_4 h =>
    unfold stepStart
    rcases hold_cases tm.tStart r.cnt with ⟨e, -⟩ | ⟨e, hc⟩ <;> rw [e]
    · show TickEffect tm r line (if line then complete .badStart r else enter .wPres r)
      split
      · exact .fail _ (.badStart h)
      · exact .next _ (.wPres h)
    · exact .count (.start h hc)
  case h_5 h =>
    unfold stepWPres
    rcases waitThen_cases false tm.toPres .wSyncL .notDetected r line with ⟨e, -⟩ | ⟨e, -, hc⟩ | ⟨e, -, hc⟩ <;> rw [e]
    exacts [.next _ (.wSyncL h), .fail _ (.notDetected h hc), .count (.wPres h hc)]
  case h_6 h =>
    unfold stepWSyncL
    rcases waitThen_cases true tm.toSyncL .wSyncH .syncTimeout r line with ⟨e, -⟩ | ⟨e, -, hc⟩ | ⟨e, -, hc⟩ <;> rw [e]
    exacts [.next _ (.wSyncH h), .fail _ (.syncTimeout h hc), .count (.wSyncL h hc)]
  case h_7 h =>
    unfold stepWSyncH
    rcases waitThen_cases false tm.toSyncH .bLow .overlyFast r line with ⟨e, -⟩ | ⟨e, -, hc⟩ | ⟨e, -, hc⟩ <;> rw [e]
    exacts [.next _ (.bLow h), .fail _ (.overlyFast h hc), .count (.wSyncH h hc)]
  case h_8 h =>
    unfold stepBLow
    rcases waitThen_cases true tm.toBitL .bSample .dataTimeout r line with ⟨e, -⟩ | ⟨e, -, hc⟩ | ⟨e, -, hc⟩ <;> rw [e]
    exacts [.next _ (.bSample h), .fail _ (.lowTimeout h hc), .count (.bLow h hc)]
  case h_9 h =>
    unfold stepBSample
    rcases hold_cases tm.tSample r.cnt with ⟨e, hc⟩ | ⟨e, hc⟩ <;> rw [e]
    · exact .sample h hc
    · exact .count (.bSample h hc)
  case h_10 h =>
    unfold stepBHigh
    rcases waitLevel_cases false tm.toBitH line r.cnt with ⟨e, hl⟩ | ⟨e, -, hc⟩ | ⟨e, -, hc⟩ <;> rw [e]
    · show TickEffect tm r line (if r.bitcnt.toNat < 40 then enter .bLow r else finishFrame r)
      split
      · exact .next _ (.nextBit h ‹_›)
      · exact .finish h (by omega) hl
    · exact .fail _ (.highTimeout h hc)
    · exact .count (.bHigh h hc)

/-- What packing and validating a frame answers (42_frame_decoder.md R152; 43_frame_validator.md R173). -/
theorem finishFrame_cases (r : ReadUnit) :
    (checksumOk (pack r.shift) = true ∧ finishFrame r = complete .success
      { r with cnt := 0, raw := pack r.shift, rawFull := true, valid := pack r.shift, haveValid := true }) ∨
    (checksumOk (pack r.shift) = false ∧ finishFrame r = complete .badChecksum
      { r with cnt := 0, raw := pack r.shift, rawFull := true }) := by
  cases h : checksumOk (pack r.shift)
  · exact .inr ⟨rfl, by simp only [finishFrame, h, Bool.false_eq_true, if_false]⟩
  · exact .inl ⟨rfl, by simp only [finishFrame, h, if_true]⟩

/-- A tick never leaves the idle read unit's state. -/
theorem frameStep_idle (tm : Timing) (r : ReadUnit) (line : Bool) (hp : r.phase = .idle) :
    frameStep tm r line = (r, false) := by
  unfold frameStep; rw [hp]

end Sys2Proof.Machine
end

