-- ==== Sys2Proof/Laws/DewPoint.lean ====
section
/-! SUPPORT. Everything each shared operation of the dew-point calculator can answer (00_scope.md R11; 44_dewpoint.md
R199-R210). -/

namespace Sys2Proof.Machine

/-- `tdiv` is the library's division truncated toward zero (00_scope.md R11). -/
theorem tdiv_eq (n d : Int) : tdiv n d = n.tdiv d := by
  unfold tdiv
  rcases Int.natAbs_eq n with hn | hn <;> rcases Int.natAbs_eq d with hd | hd
  all_goals
    generalize n.natAbs = a at *
    generalize d.natAbs = b at *
    subst hn hd
    rcases Nat.eq_zero_or_pos a with rfl | ha
    · simp
    rcases Nat.eq_zero_or_pos b with rfl | hb
    · simp
    simp [Int.sign_eq_one_of_pos, ha, hb, Int.tdiv_neg, Int.neg_tdiv]

/-- `rdiv` is within half of the exact quotient: |2·(n − q·d)| ≤ d (00_scope.md R11). -/
theorem rdiv_nearest (n : Int) {d : Int} (hd : 0 < d) :
    2 * n - d ≤ 2 * (rdiv n d * d) ∧ 2 * (rdiv n d * d) ≤ 2 * n + d := by
  have key : ∀ m : Int, 2 * m - d ≤ 2 * ((2 * m + d) / (2 * d) * d) ∧ 2 * ((2 * m + d) / (2 * d) * d) ≤ 2 * m + d := by
    intro m
    have h1 := Int.mul_ediv_add_emod (2 * m + d) (2 * d)
    have h2 := Int.emod_nonneg (2 * m + d) (show 2 * d ≠ 0 by omega)
    have h3 := Int.emod_lt_of_pos (2 * m + d) (show 0 < 2 * d by omega)
    have h4 : 2 * ((2 * m + d) / (2 * d) * d) = 2 * d * ((2 * m + d) / (2 * d)) := by ring
    omega
  unfold rdiv
  by_cases hn : 0 ≤ n
  · rw [if_pos hn]; exact key n
  · rw [if_neg hn]
    have := key (-n)
    rw [show 2 * -n = -2 * n by ring] at this
    have e : ∀ x : Int, -x * d = -(x * d) := fun x => by ring
    rw [e]; omega

/-- Saturation: inside int16 the value itself, outside the nearest bound with SAT (44_dewpoint.md R200). -/
theorem saturate_cases (q : Int) (range : Bool) :
    (32767 < q ∧ saturate q range = ⟨32767, false, range, true⟩) ∨
    (q < -32768 ∧ saturate q range = ⟨-32768, false, range, true⟩) ∨
    (-32768 ≤ q ∧ q ≤ 32767 ∧ saturate q range = ⟨q, false, range, false⟩) := by
  by_cases h1 : 32767 < q
  · exact .inl ⟨h1, if_pos h1⟩
  · by_cases h2 : q < -32768
    · exact .inr (.inl ⟨h2, by rw [saturate, if_neg h1, if_pos h2]⟩)
    · exact .inr (.inr ⟨by omega, by omega, by rw [saturate, if_neg h1, if_neg h2]⟩)

/-- The result from γ: out of domain where d ≤ 0, else the saturated quotient (44_dewpoint.md R200, R208(c)). -/
theorem fromGamma_cases (g : Int) (range : Bool) :
    (aQ - g ≤ 0 ∧ fromGamma g range = outOfDomain range) ∨
    (0 < aQ - g ∧ fromGamma g range = saturate (rdiv (b10 * g) (aQ - g)) range) := by
  by_cases h : aQ - g ≤ 0
  · exact .inl ⟨h, if_pos h⟩
  · exact .inr ⟨by omega, if_neg h⟩

/-- The dew point: out of domain for H10 = 0 or T10 ≤ −2377, else the result from γ (44_dewpoint.md R204, R208). -/
theorem dewPoint_cases (log2 : Nat → Nat) (c t10 : Int) (h10 : Nat) :
    ((h10 = 0 ∨ b10 + t10 ≤ 0) ∧ dewPoint log2 c t10 h10 = outOfDomain (outOfRange t10 h10)) ∨
    (h10 ≠ 0 ∧ 0 < b10 + t10 ∧
      dewPoint log2 c t10 h10 = fromGamma (gammaQ16 ((log2 h10 : Int) - c) t10) (outOfRange t10 h10)) := by
  by_cases h : h10 = 0 ∨ b10 + t10 ≤ 0
  · exact .inl ⟨h, if_pos h⟩
  · exact .inr ⟨by omega, by omega, if_neg h⟩

/-- The squaring loop adds less than 2^k to what it has (44_dewpoint.md R193). -/
theorem log2Loop_bound (k y r : Nat) : r ≤ log2Loop k y r ∧ log2Loop k y r < r + 2 ^ k := by
  induction k generalizing y r with
  | zero => simp [log2Loop]
  | succ k ih =>
    have hp : 2 ^ (k + 1) = 2 ^ k + 2 ^ k := by ring
    rw [log2Loop]
    split
    · have := ih ((y * y) >>> 31 >>> 1) (r + 2 ^ k); omega
    · have := ih ((y * y) >>> 31) r; omega

end Sys2Proof.Machine
end

