-- ==== Sys2Proof/Laws/Magnus.lean ====
section
/-! SUPPORT. What the real Magnus function answers at saturation (44_dewpoint.md R190, R202). -/

namespace Sys2Proof.Machine

/-- γ at RH = 100 %: the logarithm vanishes. -/
theorem magnusGamma_saturated (t : ℝ) : magnusGamma t 100 = magnusA * t / (magnusB + t) := by
  rw [magnusGamma, div_self (by norm_num), Real.log_one, zero_add]

/-- At RH = 100 % the dew point is the temperature. -/
theorem magnusTd_saturated {t : ℝ} (h : 0 < magnusB + t) : magnusTd t 100 = t := by
  have hb : magnusB + t ≠ 0 := h.ne'
  have ha : magnusA ≠ 0 := by norm_num [magnusA]
  have hbb : magnusB ≠ 0 := by norm_num [magnusB]
  have hd : magnusA - magnusA * t / (magnusB + t) = magnusA * magnusB / (magnusB + t) := by field_simp; ring
  rw [magnusTd, magnusGamma_saturated, hd]
  field_simp

end Sys2Proof.Machine
end

