-- ==== Sys2Proof/Laws/PerInstr.lean ====
section
/-! SUPPORT. A statement per command about its encoding: the word of a command has RSV = 0 and an opcode below 4, is
well formed, and is what opcode_table.json lists. -/

namespace Sys2Proof.Laws.CommandWord

/-- The full word of each command, from opcode_table.json. -/
def tableWord : Instr → Nat
  | .nop => 0x00000000
  | .read => 0x00000001
  | .dpPrecise => 0x00000002
  | .dpFast => 0x00000003

/-- The command is well formed, its word has a zero RSV field, and the word is the table's. -/
def Statement (i : Instr) : Prop :=
  i.wf = true ∧ rsvField (encode i) = 0 ∧ (opField (encode i)).toNat < 4 ∧ (encode i).toNat = tableWord i

theorem nop : Statement .nop := ⟨rfl, rfl, by decide, rfl⟩
theorem read : Statement .read := ⟨rfl, rfl, by decide, rfl⟩
theorem dpPrecise : Statement .dpPrecise := ⟨rfl, rfl, by decide, rfl⟩
theorem dpFast : Statement .dpFast := ⟨rfl, rfl, by decide, rfl⟩

end Sys2Proof.Laws.CommandWord
end

