-- ==== Sys2Proof/Laws/Units.lean ====
section
/-! SUPPORT. What a host operation does to the interrupt registers, and what the two units do in a cycle: one lemma per
shared operation of Machine/Cycle.lean. -/

namespace Sys2Proof.Machine

/-- No host operation changes the parameters (00_scope.md R6). -/
theorem HostEffect.params_eq {s s1 : State} (h : HostEffect s s1) : s1.params = s.params := by
  cases h <;> rfl

/-- A host operation changes the read unit only by an accepted READ. -/
theorem HostEffect.rd_cases {s s1 : State} (h : HostEffect s s1) :
    s1.rd = s.rd ∨ (rdBusy s.rd = false ∧ s1.rd = s.rd.accept) := by
  cases h with
  | read hb => exact .inr ⟨hb, rfl⟩
  | _ => exact .inl rfl

/-- A host operation on a busy read unit changes neither it nor the timing registers (20_memory.md R67). -/
theorem HostEffect.of_rdBusy {s s1 : State} (h : HostEffect s s1) (hb : rdBusy s.rd = true) :
    s1.rd = s.rd ∧ s1.timing = s.timing := by
  cases h with
  | timing k v hf => rw [hf] at hb; cases hb
  | read hf => rw [hf] at hb; cases hb
  | _ => exact ⟨rfl, rfl⟩

/-- A host operation on a busy dew-point unit does not change it (20_memory.md R67). -/
theorem HostEffect.of_dpBusy {s s1 : State} (h : HostEffect s s1) (hb : s.dp.busy = true) : s1.dp = s.dp := by
  cases h with
  | dpIn v hf => rw [hf] at hb; cases hb
  | dp m hf => rw [hf] at hb; cases hb
  | _ => rfl

/-- The vector of all three sources is neutral for AND. -/
theorem and_allBits3 (x : BitVec 3) : x &&& 7#3 = x := by revert x; decide

/-- The interrupt registers after a host operation (60_exceptions.md R236, R237; 20_memory.md R68): the cause it
raises, its write-one-to-clear, and HOST_ERR if it raises one. -/
theorem hostStep_interrupts {s s1 : State} {op : HostOp} (h1 : hostStep s op = .next s1) :
    s1.hif.cause = (hostErrorOf s op).getD s.hif.cause ∧
    s1.hif.intPend = (s.hif.intPend &&& ~~~w1cMask op) ||| (if (hostErrorOf s op).isSome then hostErrBit else 0#3) := by
  cases op with
  | idle => cases h1; simp [hostErrorOf, w1cMask, and_allBits3]
  | rd off => cases h1; simp [hostErrorOf, w1cMask, and_allBits3]
  | wr off data =>
    rw [hostStep_wr] at h1
    split at h1
    case isFalse ha =>
      cases h1; simp [hostErrorOf, w1cMask, regAt_of_misaligned (by simpa using ha), and_allBits3]
    split at h1
    case h_1 e =>
      simp only [hostErrorOf, w1cMask, e]
      unfold command at h1
      split at h1
      case h_2 ei => cases h1; simp [ei, hostError, HostIf.raise, hostErrBit, and_allBits3]
      rename_i i ei
      cases i with
      | nop => cases h1; simp [ei, and_allBits3]
      | read =>
        replace h1 : Host.Outcome.next (startRead s) = _ := h1
        cases h1; simp only [ei, startRead]
        split <;> simp [hostError, HostIf.raise, hostErrBit, and_allBits3]
      | dpPrecise =>
        replace h1 : Host.Outcome.next (startDp .precise s) = _ := h1
        cases h1; simp only [ei, startDp]
        split <;> simp [hostError, HostIf.raise, hostErrBit, and_allBits3]
      | dpFast =>
        replace h1 : Host.Outcome.next (startDp .fast s) = _ := h1
        cases h1; simp only [ei, startDp]
        split <;> simp [hostError, HostIf.raise, hostErrBit, and_allBits3]
    case h_2 r hr e =>
      cases h1
      simp only [hostErrorOf, w1cMask, e]
      cases r <;> simp_all [writeReg, HostIf.clear, and_allBits3]
      · simp only [writeTiming]; split <;> simp [hostError, HostIf.raise, hostErrBit]
      · simp only [writeDpIn]; split <;> simp [hostError, HostIf.raise, hostErrBit]
    case h_3 e => cases h1; simp [hostErrorOf, w1cMask, e, and_allBits3]

/-- A running step of a known host operation, taken apart: its effect, and then the units' advance. -/
theorem step_running {s t : State} {op : HostOp} (hr : running s) (hop : hostNext s.env.program = some op)
    (h : step s = .next t) :
    ∃ s1, hostStep s op = .next s1 ∧ HostEffect s s1 ∧ t = advance s s1 (busReply s op) := by
  obtain ⟨s1, h1, he⟩ := hostStep_effect s op
  rw [step_of_host hr hop h1] at h
  cases h
  exact ⟨s1, h1, he, rfl⟩

/-- The write of a register other than INT_EN leaves INT_EN. -/
theorem writeReg_intEn {s : State} {data : Word} {r : Reg} (h : r ≠ .intEn) :
    (writeReg s data r).hif.intEn = s.hif.intEn := by
  cases r with
  | intEn => exact absurd rfl h
  | timing k => simp only [writeReg, writeTiming]; split <;> rfl
  | dpIn => simp only [writeReg, writeDpIn]; split <;> rfl
  | _ => rfl

/-- The write of a register that is no timing register leaves them all. -/
theorem writeReg_timing {s : State} {data : Word} {r : Reg} (h : ∀ k, r ≠ .timing k) :
    (writeReg s data r).timing = s.timing := by
  cases r with
  | timing k => exact absurd rfl (h k)
  | dpIn => simp only [writeReg, writeDpIn]; split <;> rfl
  | _ => rfl

/-- No CMD write touches INT_EN or a timing register. -/
theorem command_frame {s s1 : State} {w : Word} (h : command s w = .next s1) :
    s1.hif.intEn = s.hif.intEn ∧ s1.timing = s.timing := by
  unfold command at h
  split at h
  · rename_i i _
    cases i with
    | nop => cases h; exact ⟨rfl, rfl⟩
    | read =>
      replace h : Host.Outcome.next (startRead s) = _ := h
      cases h; simp only [startRead]; split <;> exact ⟨rfl, rfl⟩
    | dpPrecise =>
      replace h : Host.Outcome.next (startDp .precise s) = _ := h
      cases h; simp only [startDp]; split <;> exact ⟨rfl, rfl⟩
    | dpFast =>
      replace h : Host.Outcome.next (startDp .fast s) = _ := h
      cases h; simp only [startDp]; split <;> exact ⟨rfl, rfl⟩
  · cases h; exact ⟨rfl, rfl⟩

/-- The bus answers ERR exactly to a misaligned read or write (20_memory.md R63). -/
theorem isBusError_busReply (s : State) (op : HostOp) : isBusError (busReply s op) =
    match op with
    | .idle => false
    | .rd off => !aligned off
    | .wr off _ => !aligned off := by
  cases op with
  | idle => rfl
  | rd off => simp only [busReply]; cases aligned off <;> rfl
  | wr off data => simp only [busReply]; cases aligned off <;> rfl

/-- A reset cycle answers no ERR (70_reset_and_hazards.md R270). -/
theorem isBusError_busReplyInReset (op : HostOp) : isBusError (busReplyInReset op) = false := by
  cases op <;> rfl

/-- The fault record after a cycle: one entry more, or as it was. -/
theorem faultsAfter_cases (e : Env) (out : BusOut) :
    (isBusError out = true ∧
      faultsAfter e out = { cycle := e.clk, op := (hostNext e.program).getD .idle } :: e.busFaults) ∨
    (isBusError out = false ∧ faultsAfter e out = e.busFaults) := by
  unfold faultsAfter
  cases isBusError out
  · exact .inr ⟨rfl, rfl⟩
  · exact .inl ⟨rfl, rfl⟩

/-- A host operation touches INT_EN only by a write to it, and the timing registers only by a write to one of them
(20_memory.md R65). -/
theorem hostStep_frame {s s1 : State} {op : HostOp} (h1 : hostStep s op = .next s1) :
    ((∀ d, op ≠ .wr (offsetOf .intEn) d) → s1.hif.intEn = s.hif.intEn) ∧
    ((∀ k d, op ≠ .wr (offsetOf (.timing k)) d) → s1.timing = s.timing) := by
  cases op with
  | idle => cases h1; exact ⟨fun _ => rfl, fun _ => rfl⟩
  | rd off => cases h1; exact ⟨fun _ => rfl, fun _ => rfl⟩
  | wr off data =>
    rw [hostStep_wr] at h1
    split at h1
    case isFalse => cases h1; exact ⟨fun _ => rfl, fun _ => rfl⟩
    split at h1
    case h_1 => exact ⟨fun _ => (command_frame h1).1, fun _ => (command_frame h1).2⟩
    case h_2 r hr e =>
      cases h1
      obtain rfl := offsetOf_of_regAt e
      refine ⟨fun h => writeReg_intEn ?_, fun h => writeReg_timing ?_⟩
      · rintro rfl; exact h data rfl
      · rintro k rfl; exact h k data rfl
    case h_3 => cases h1; exact ⟨fun _ => rfl, fun _ => rfl⟩

/-- A tick of a busy frame decoder completes exactly when it leads to IDLE (42_frame_decoder.md R141). -/
theorem frameStep_done (tm : Timing) (r : ReadUnit) (line : Bool) (hp : r.phase ≠ .idle) :
    (frameStep tm r line).2 = true ↔ (frameStep tm r line).1.phase = .idle := by
  have he := frameStep_effect tm r line hp
  generalize frameStep tm r line = x at he
  cases he with
  | count h => simpa [stay] using hp
  | next p h => cases h <;> simp [enter]
  | sample => simp [enter]
  | fail => simp [complete]
  | finish => rcases finishFrame_cases r with ⟨_, e⟩ | ⟨_, e⟩ <;> rw [e] <;> simp [complete]

/-- The read unit after a cycle: a tick of the frame decoder, or the host's effect (20_memory.md R66 step 3). -/
theorem readAfter_cases {s s1 : State} (he : HostEffect s s1) :
    (decoderSteps s = true ∧ readAfter s s1 = frameStep s.timing s.rd (lineNow s.env)) ∨
    (decoderSteps s = false ∧ readAfter s s1 = (s.rd, false)) ∨
    (rdBusy s.rd = false ∧ readAfter s s1 = (s.rd.accept, false)) := by
  unfold readAfter
  cases hd : decoderSteps s
  · rcases he.rd_cases with e | ⟨hb, e⟩
    · exact .inr (.inl ⟨rfl, by simp [e]⟩)
    · exact .inr (.inr ⟨hb, by simp [e]⟩)
  · exact .inl ⟨rfl, by simp⟩

/-- A cycle raises RD_DONE exactly when the read unit leaves the busy state (42_frame_decoder.md R141). -/
theorem readAfter_done {s s1 : State} (he : HostEffect s s1) :
    (readAfter s s1).2 = (rdBusy s.rd && !rdBusy (readAfter s s1).1) := by
  rcases readAfter_cases he with ⟨hd, e⟩ | ⟨-, e⟩ | ⟨hb, e⟩
  · have hb : rdBusy s.rd = true := (Bool.and_eq_true_iff.1 hd).1
    have hp : s.rd.phase ≠ .idle := by simpa [rdBusy] using hb
    have := frameStep_done s.timing s.rd (lineNow s.env) hp
    rw [e, hb, Bool.true_and, Bool.eq_iff_iff, this]
    simp [rdBusy]
  · rw [e]; simp
  · rw [e]; simp [hb]

/-- A cycle raises DP_DONE exactly when a computation completes (44_dewpoint.md R214). -/
theorem dpAfter_done (s s1 : State) : (dpAfter s s1).2 = dpCompletes s := by
  unfold dpAfter dpCompletes
  cases s.dp.busy <;> simp [dpStep]
  split <;> simp_all

/-- A cycle of the busy dew-point unit: it counts, or it completes with the function's result (44_dewpoint.md R214,
R215). -/
theorem dpStep_cases (d : DpUnit) :
    (d.cnt ≠ 1 ∧ dpStep d = ({ d with cnt := d.cnt - 1 }, false)) ∨
    (d.cnt = 1 ∧ dpStep d = ({ d with
      busy := false, cnt := 0, td10 := toHalf (dpResult d.modeL d.op).td, domain := (dpResult d.modeL d.op).domain,
      range := (dpResult d.modeL d.op).range, sat := (dpResult d.modeL d.op).sat, mode := d.modeL, done := true },
      true)) := by
  unfold dpStep
  by_cases h : d.cnt = 1
  · exact .inr ⟨h, by rw [if_pos h]; simp [completeDp, h]⟩
  · exact .inl ⟨h, if_neg h⟩

/-- Bit 0 of INT_PEND after a completion of the read unit, whatever else happens. -/
theorem doneSet_rdDone (p : BitVec 3) (b : Bool) : (p ||| doneSet true b).getLsbD 0 = true := by
  revert p b; decide

/-- Bit 1 of INT_PEND after a completion of the dew-point unit, whatever else happens. -/
theorem doneSet_dpDone (p : BitVec 3) (b : Bool) : (p ||| doneSet b true).getLsbD 1 = true := by
  revert p b; decide

/-- Ticks compose. -/
theorem decoderTicks_append (tm : Timing) (r : ReadUnit) (a b : List Bool) :
    decoderTicks tm r (a ++ b) = decoderTicks tm (decoderTicks tm r a) b := by
  induction a generalizing r with
  | nil => rfl
  | cons x a ih => exact ih _

end Sys2Proof.Machine
end

