-- ==== Sys2Proof/Laws/Views.lean ====
section
/-! SUPPORT. The bits of the composed register views (10_state.md R24, R26, R44, R46; 43_frame_validator.md R177), said
once: no later proof unfolds a chain of concatenations. -/

namespace Sys2Proof.Machine

/-- Bit 0 of a one-bit vector. -/
theorem decide_and_of_eq {k : Nat} (h : k = 0) (b : Bool) : (decide (k = 0) && b) = b := by simp [h]

/-- STATUS, bit by bit (10_state.md R26). -/
theorem statusWord_getLsbD (s : State) (i : Nat) : (statusWord s).getLsbD i =
    if i < 1 then rdBusy s.rd else if i < 2 then s.dp.busy else if i < 3 then s.rd.haveValid
    else if i < 4 then s.rd.rawFull else if i < 8 then (codeBits s.rd.lastCode).getLsbD (i - 4)
    else if i < 12 then (phaseBits s.rd.lastPhase).getLsbD (i - 8) else if i < 18 then s.rd.lastBits.getLsbD (i - 12)
    else if i < 21 then (causeBits s.hif.cause).getLsbD (i - 18) else false := by
  have h1 : i - 1 < 1 ↔ i < 2 := by omega
  have h2 : i - 2 < 1 ↔ i < 3 := by omega
  have h3 : i - 3 < 1 ↔ i < 4 := by omega
  have h4 : i - 4 < 4 ↔ i < 8 := by omega
  have h5 : i - 8 < 4 ↔ i < 12 := by omega
  have h6 : i - 12 < 6 ↔ i < 18 := by omega
  have h7 : i - 18 < 3 ↔ i < 21 := by omega
  show @BitVec.getLsbD (11 + 3 + 6 + 4 + 4 + 1 + 1 + 1 + 1) _ i = _
  simp only [statusWord, BitVec.getLsbD_append]
  simp only [Nat.sub_sub, Nat.reduceAdd, h1, h2, h3, h4, h5, h6, h7, BitVec.getLsbD_ofBool]
  repeat' split
  all_goals first | exact BitVec.getLsbD_zero | rfl | exact decide_and_of_eq (by omega) _

/-- DP_OUT, bit by bit (10_state.md R44). -/
theorem dpOutWord_getLsbD (d : DpUnit) (i : Nat) : (dpOutWord d).getLsbD i =
    if i < 16 then d.td10.getLsbD i else if i < 17 then d.domain else if i < 18 then d.range
    else if i < 19 then d.sat else if i < 20 then decide (d.mode = .fast) else if i < 30 then false
    else if i < 31 then d.done else if i < 32 then d.busy else false := by
  have e : modeBit d.mode = BitVec.ofBool (decide (d.mode = .fast)) := by cases d.mode <;> rfl
  have h1 : i - 16 < 1 ↔ i < 17 := by omega
  have h2 : i - 17 < 1 ↔ i < 18 := by omega
  have h3 : i - 18 < 1 ↔ i < 19 := by omega
  have h4 : i - 19 < 1 ↔ i < 20 := by omega
  have h5 : i - 20 < 10 ↔ i < 30 := by omega
  have h6 : i - 30 < 1 ↔ i < 31 := by omega
  show @BitVec.getLsbD (1 + 1 + 10 + 1 + 1 + 1 + 1 + 16) _ i = _
  simp only [dpOutWord, e, BitVec.getLsbD_append]
  simp only [Nat.sub_sub, Nat.reduceAdd, h1, h2, h3, h4, h5, h6, BitVec.getLsbD_ofBool]
  repeat' split
  all_goals first | exact BitVec.getLsbD_zero | rfl | exact decide_and_of_eq (by omega) _ | (simp; omega)

/-- DBG, bit by bit (10_state.md R46). -/
theorem dbgWord_getLsbD (r : ReadUnit) (q : Bool) (i : Nat) : (dbgWord r q).getLsbD i =
    if i < 4 then (phaseBits r.phase).getLsbD i else if i < 10 then r.bitcnt.getLsbD (i - 4)
    else if i < 11 then q else if i < 13 then (padModeBits (padMode r.phase)).getLsbD (i - 11)
    else if i < 16 then false else r.cnt.getLsbD (i - 16) := by
  have h1 : i - 4 < 6 ↔ i < 10 := by omega
  have h2 : i - 10 < 1 ↔ i < 11 := by omega
  have h3 : i - 11 < 2 ↔ i < 13 := by omega
  have h4 : i - 13 < 3 ↔ i < 16 := by omega
  show @BitVec.getLsbD (16 + 3 + 2 + 1 + 6 + 4) _ i = _
  simp only [dbgWord, BitVec.getLsbD_append]
  simp only [Nat.sub_sub, Nat.reduceAdd, h1, h2, h3, h4, BitVec.getLsbD_ofBool]
  repeat' split
  all_goals first | exact BitVec.getLsbD_zero | rfl | exact decide_and_of_eq (by omega) _

/-- The upper half of a word made of two halves. -/
theorem extractLsb'_hi (a b : Half) : (a ++ b).extractLsb' 16 16 = a := by
  ext i hi
  rw [BitVec.getElem_extractLsb']
  show @BitVec.getLsbD (16 + 16) (a ++ b) (16 + i) = _
  rw [BitVec.getLsbD_append, if_neg (by omega), Nat.add_sub_cancel_left, BitVec.getLsbD_eq_getElem hi]

/-- The lower half of a word made of two halves. -/
theorem extractLsb'_lo (a b : Half) : (a ++ b).extractLsb' 0 16 = b := by
  ext i hi
  rw [BitVec.getElem_extractLsb']
  show @BitVec.getLsbD (16 + 16) (a ++ b) (0 + i) = _
  rw [BitVec.getLsbD_append, Nat.zero_add, if_pos hi, BitVec.getLsbD_eq_getElem hi]

/-- A frame's first word shows byte 0 at the top (20_memory.md R70). -/
theorem frameW0_getLsbD (f : Frame) (i : Nat) : (frameW0 f).getLsbD i =
    if i < 8 then f.b3.getLsbD i else if i < 16 then f.b2.getLsbD (i - 8)
    else if i < 24 then f.b1.getLsbD (i - 16) else f.b0.getLsbD (i - 24) := by
  show @BitVec.getLsbD (8 + 8 + 8 + 8) _ i = _
  have h1 : i - 8 < 8 ↔ i < 16 := by omega
  have h2 : i - 16 < 8 ↔ i < 24 := by omega
  simp only [frameW0, BitVec.getLsbD_append]
  simp only [Nat.sub_sub, Nat.reduceAdd, h1, h2]

/-- SHIFT after a sample: the sample in bit 0, every other bit one place up (42_frame_decoder.md R150). -/
theorem shiftIn_getLsbD (sh : BitVec 40) (l : Bool) (i : Nat) :
    (shiftIn sh l).getLsbD i = if i = 0 then l else decide (i < 40) && sh.getLsbD (i - 1) := by
  show @BitVec.getLsbD (39 + 1) _ i = _
  rw [shiftIn, BitVec.getLsbD_append, BitVec.getLsbD_ofBool, BitVec.getLsbD_extractLsb', Nat.zero_add]
  rcases Nat.eq_zero_or_pos i with rfl | h
  · rfl
  · rw [if_neg (by omega), if_neg (by omega), decide_eq_decide.2 (show i - 1 < 39 ↔ i < 40 by omega)]

/-- The magnitude of variant 1's temperature as a number (43_frame_validator.md R176). -/
theorem tempMag_eq (f : Frame) : tempMag f = (f.b2.toNat % 128) * 256 + f.b3.toNat := by
  have h := f.b3.isLt
  have e : (0x7F : Byte).toNat = 2 ^ 7 - 1 := rfl
  simp only [tempMag, BitVec.toNat_append, BitVec.toNat_and, e, Nat.and_two_pow_sub_one_eq_mod, Nat.shiftLeft_eq]
  rw [Nat.mul_comm, ← Nat.two_pow_add_eq_or_of_lt h]

/-- The humidity of variant 1 as a number (43_frame_validator.md R176). -/
theorem humX10_v1 (f : Frame) : humX10 .v1 f = f.b0.toNat * 256 + f.b1.toNat := by
  have h := f.b1.isLt
  simp only [humX10, BitVec.toNat_append, Nat.shiftLeft_eq]
  rw [Nat.mul_comm, ← Nat.two_pow_add_eq_or_of_lt h]

/-- HUM_X10 fits READING's low half (43_frame_validator.md R177). -/
theorem humX10_lt (v : Variant) (f : Frame) : humX10 v f < 2 ^ 16 := by
  have h0 := f.b0.isLt; have h1 := f.b1.isLt
  cases v with
  | v0 => simp only [humX10]; omega
  | v1 => rw [humX10_v1]; omega

end Sys2Proof.Machine
end

