-- ==== Sys2Proof/Tests/Slice0.lean ====
section
/-! SUPPORT. Tests: words decoded from the encoding tables, ill-formed terms refused, at most two one-step tests per
command, and for every obligation with hypotheses concrete data that meet them (`witness_<Name>`). Expected values are
those of 30_encoding.md, 20_memory.md, 40_commands.md, 44_dewpoint.md and 95_test_vectors.md. -/

namespace Sys2Proof.Tests

open Sys2Proof Sys2Proof.Machine

/-- An instance: variant 0, one tick a cycle, latencies 3 and 2. -/
def params0 : Params := { variant := .v0, tickDivReset := 0, dpLatP := 3, dpLatF := 2, base := 0x40000000 }

/-- The instance after reset, with a host program and a high line. -/
def start (prog : List HostCmd) : State :=
  { State.resetWith params0 with env := { Env.atReset with program := prog, lineIn := [true, true, true, true] } }

/-- The instance with PHASE, CNT and BITCNT set. -/
def inPhase (p : Phase) (cnt : Half) (bits : BitVec 6) (prog : List HostCmd) : State :=
  { start prog with rd := { ReadUnit.atReset with phase := p, cnt := cnt, bitcnt := bits } }

/-- The instance with the dew-point unit busy. -/
def dpBusy (m : DpMode) (cnt : Byte) (op : Word) (prog : List HostCmd) : State :=
  { start prog with dp := { DpUnit.atReset with busy := true, cnt := cnt, modeL := m, op := op } }

/-- The state a step leads to. -/
def after (o : Host.Outcome State Fault Refusal) : Option State :=
  match o with
  | .next s => some s
  | .fault _ => none
  | .refused _ => none

/-! ## Words -/

theorem test_word_nop : decode (0b0000000000000000000000000000#28 ++ 0b0000#4) = .ok .nop := by decide
theorem test_word_read : decode (0b0000000000000000000000000000#28 ++ 0b0001#4) = .ok .read := by decide
theorem test_word_dpPrecise : decode (0b0000000000000000000000000000#28 ++ 0b0010#4) = .ok .dpPrecise := by decide
theorem test_word_dpFast : decode (0b0000000000000000000000000000#28 ++ 0b0011#4) = .ok .dpFast := by decide

/-- 95_test_vectors.md V-ENC: illegal words. -/
theorem test_word_illegal : decode 0x00000004#32 = .error .reservedOpcode ∧ decode 0x0000000F#32 = .error .reservedOpcode ∧
    decode 0x00000010#32 = .error .reservedBits ∧ decode 0x80000001#32 = .error .reservedBits := by decide

theorem test_table_words : decodeTableWord 32 1 = some .read ∧ decodeTableWord 32 17 = none ∧
    decodeTableWord 4 3 = some .dpFast := by decide

/-! ## Ill-formed terms -/

theorem test_params_wf : params0.wf := by decide
theorem test_illformed_latP : ¬ ({ params0 with dpLatP := 0 } : Params).wf := by decide
theorem test_illformed_latF : ¬ ({ params0 with dpLatF := 0 } : Params).wf := by decide
theorem test_illformed_narrow : (HostCmd.narrow 0x00 2).wf = false := by decide
theorem test_illformed_poll : (HostCmd.poll 0x08 0x1 0x2).canEnd = false := by decide
theorem test_narrow_refused : step (start [.narrow 0x00 2]) = .refused .narrowAccess := rfl
theorem test_before_first_reset :
    step { start [] with env := { (start []).env with wasReset := false } } = .fault .beforeFirstReset := rfl

/-! ## Commands, one step each -/

/-- V-CMD-4: NOP while a transaction runs. -/
theorem test_nop_busy : (after (step (inPhase .stab 98 0 [.wr 0x04 0x0]))).map
    (fun t => (t.rd.phase, t.hif.cause, t.hif.intPend)) = some (.stab, .none, 0) := by decide

/-- NOP as the first command after reset. -/
theorem test_nop_first : (after (step (State.reset.withFetchWord 32 0))).map (fun t => (t.rd.phase, t.env.busOut)) =
    some (.idle, .wr .ok) := by decide

/-- V-CMD-1: READ from reset, for every instance. -/
theorem test_read_first : (after (step (State.reset.withFetchWord 32 1))).map
    (fun t => (t.rd.phase, t.hif.cause, t.hif.intPend)) = some (.check, .none, 0) := by decide

/-- V-CMD-2: READ in the cycle in which a transaction completes with SUCCESS: refused, INT_PEND = 0x5, PHASE = IDLE. -/
theorem test_read_in_completion : (after (step { inPhase .bHigh 20 40 [.wr 0x04 0x1] with
      lineQ := false, env := { (start [.wr 0x04 0x1]).env with lineIn := [false] } })).map
    (fun t => (t.rd.phase, t.rd.lastCode, t.hif.cause, t.hif.intPend)) = some (.idle, .success, .busy, 5) := by decide

/-- V-CMD-8: DP_PRECISE is accepted with its latency and operands. -/
theorem test_dpPrecise_first : (after (step (State.reset.withFetchWord 32 2))).map
    (fun t => (t.dp.busy, t.dp.modeL, t.dp.op)) = some (true, .precise, 0) := by decide

/-- V-DP-1 and V-DP-2, precise, at the completing cycle: DP_OUT. -/
theorem test_dpPrecise_values :
    (after (step (dpBusy .precise 1 0x01F400F0 []))).map (fun t => view t 0x50) = some 0x40000081 ∧
    (after (step (dpBusy .precise 1 0x00C80000 []))).map (fun t => view t 0x50) = some 0x4000FF35 := by decide

/-- V-CMD-6: DP_FAST in the completion cycle is refused. -/
theorem test_dpFast_in_completion : (after (step (dpBusy .fast 1 0 [.wr 0x04 0x3]))).map
    (fun t => (t.dp.busy, t.hif.cause, t.hif.intPend)) = some (false, .busy, 6) := by decide

/-- V-DP-5, V-DP-12 and V-DP-13, fast, at the completing cycle: DP_OUT. -/
theorem test_dpFast_values :
    (after (step (dpBusy .fast 1 0x02ED017C []))).map (fun t => view t 0x50) = some 0x4008013E ∧
    (after (step (dpBusy .fast 1 0xFFFF7FFF []))).map (fun t => view t 0x50) = some 0x400B0000 ∧
    (after (step (dpBusy .fast 1 0x07D04E20 []))).map (fun t => view t 0x50) = some 0x400E7FFF := by decide

/-! ## Registers -/

/-- V-MEM-1 to V-MEM-4 and V-MEM-7: views after reset. -/
theorem test_views_at_reset : [0x00, 0x08, 0x58, 0x1C, 0x5C].map (view (start [])) =
    [0x44540100, 0x000000F0, 0x00000400, 0x00004650, 0] := by decide

/-- V-MEM-17: frame bytes in RAW_W0 and RAW_W1. -/
theorem test_frame_words : frameW0 (pack 0x320018004A) = 0x32001800 ∧ frameW1 (pack 0x320018004A) = 0x0000004A := by
  decide

/-! ## Witnesses: data that meet the hypotheses of the obligations, clause by clause -/

/-- The instance runs: `rst` is low and has been asserted. -/
theorem start_running (prog : List HostCmd) : running (start prog) := ⟨rfl, rfl⟩

theorem inPhase_running (p : Phase) (c : Half) (b : BitVec 6) (prog : List HostCmd) : running (inPhase p c b prog) :=
  ⟨rfl, rfl⟩

theorem dpBusy_running (m : DpMode) (c : Byte) (op : Word) (prog : List HostCmd) : running (dpBusy m c op prog) :=
  ⟨rfl, rfl⟩

theorem start_noReset (prog : List HostCmd) : noReset (start prog) := by intro b hb; cases hb

/-- RSV ≠ 0 at its lowest and highest bit; each opcode; the first and last reserved opcode. -/
theorem witness_DecodeFollowsRsvAndOp :
    (0x10#32).extractLsb' 4 28 ≠ 0 ∧ (0x80000000#32).extractLsb' 4 28 ≠ 0 ∧
    (∀ k : Fin 4, (BitVec.ofNat 32 k.val).extractLsb' 4 28 = 0 ∧
      (BitVec.ofNat 32 k.val).extractLsb' 0 4 = BitVec.ofNat 4 k.val) ∧
    (0x4#32).extractLsb' 4 28 = 0 ∧ 4 ≤ ((0x4#32).extractLsb' 0 4).toNat ∧
    (0xF#32).extractLsb' 4 28 = 0 ∧ 4 ≤ ((0xF#32).extractLsb' 0 4).toNat := by decide

theorem witness_DecodeIsTheInverseOfEncode :
    (1#32 = encode .read ∧ decode 1#32 = .ok .read) ∧ (3#32 = encode .dpFast ∧ decode 3#32 = .ok .dpFast) := by decide

theorem witness_IllegalWordsRaiseIllegal :
    ((0x10#32).extractLsb' 4 28 ≠ 0 ∨ 4 ≤ ((0x10#32).extractLsb' 0 4).toNat) ∧
    ((0x4#32).extractLsb' 4 28 ≠ 0 ∨ 4 ≤ ((0x4#32).extractLsb' 0 4).toNat) ∧
    ¬ ((0x3#32).extractLsb' 4 28 ≠ 0 ∨ 4 ≤ ((0x3#32).extractLsb' 0 4).toNat) := by decide

theorem witness_ReadStartsATransaction : (start []).rd.phase = .idle := rfl

theorem witness_ReadWhileBusyIsRefused :
    (inPhase .check 0 0 []).rd.phase ≠ .idle ∧ (inPhase .bHigh 0 40 []).rd.phase ≠ .idle := by decide

theorem witness_DpPreciseStartsAComputation : (start []).dp.busy = false := rfl

theorem witness_DpFastStartsAComputation : (start []).dp.busy = false := rfl

theorem witness_DpCommandsWhileBusyAreRefused : (dpBusy .precise 3 0 []).dp.busy = true ∧
    (Instr.dpPrecise = .dpPrecise ∨ Instr.dpPrecise = .dpFast) ∧ (Instr.dpFast = .dpPrecise ∨ Instr.dpFast = .dpFast) :=
  ⟨rfl, .inl rfl, .inr rfl⟩

/-- Each command answers a next state, accepted and refused. -/
theorem witness_CommandsLeaveTheRestUnchanged :
    (∃ t, exec .nop (start []) = .next t) ∧ (∃ t, exec .read (start []) = .next t) ∧
    (∃ t, exec .read (inPhase .stab 0 0 []) = .next t) ∧ (∃ t, exec .dpPrecise (start []) = .next t) ∧
    (∃ t, exec .dpFast (dpBusy .fast 2 0 []) = .next t) :=
  ⟨⟨_, rfl⟩, ⟨_, rfl⟩, ⟨_, rfl⟩, ⟨_, rfl⟩, ⟨_, rfl⟩⟩

/-- A command; then an accepted timing write in an idle block, and an INT_EN write off a tick and with a busy unit. -/
theorem witness_StepRunsTheDecodedCommand :
    ((Instr.read).wf = true ∧ running (start [.wr 0x04 0x1]) ∧
      hostNext (start [.wr 0x04 0x1]).env.program = some (.wr 0x04#8 0x1#32) ∧ decode 0x1#32 = .ok .read) ∧
    (running (start [.wr 0x18 7]) ∧ hostNext (start [.wr 0x18 7]).env.program = some (.wr 0x18#8 7#32) ∧
      (∃ s1, hostStep (start [.wr 0x18 7]) (.wr 0x18#8 7#32) = .next s1) ∧ (start [.wr 0x18 7]).rd.phase = .idle ∧
      (start [.wr 0x18 7]).dp.busy = false) ∧
    (let s := { inPhase .stab 0 0 [.wr 0x0C 7] with
        timing := { (start []).timing with tickDiv := 1 }, hif := ⟨0, 0b010, .none⟩ };
      running s ∧ hostNext s.env.program = some (.wr 0x0C#8 7#32) ∧
      (∃ s1, hostStep s (.wr 0x0C#8 7#32) = .next s1 ∧ s1.hif.intPend.getLsbD 1 = true) ∧
      s.timer.presc.toNat < s.timing.tickDiv.toNat) :=
  ⟨⟨rfl, ⟨rfl, rfl⟩, rfl, rfl⟩, ⟨⟨rfl, rfl⟩, rfl, ⟨_, rfl⟩, rfl, rfl⟩, ⟨rfl, rfl⟩, rfl, ⟨_, rfl, rfl⟩, by decide⟩

theorem witness_PlacedCommandRunsNext :
    ∃ t1, exec .read (State.reset.withFetchWord 32 (encode .read).toNat) = .next t1 := ⟨_, rfl⟩

/-- Misaligned at each remainder, at both ends of the window; steps with a misaligned read, a misaligned write and an
aligned read; a reset cycle. -/
theorem witness_MisalignedAccessHasNoEffect : (running (start []) ∧
      (0x01#8).toNat % 4 ≠ 0 ∧ (0x02#8).toNat % 4 ≠ 0 ∧ (0x03#8).toNat % 4 ≠ 0 ∧ (0xFF#8).toNat % 4 ≠ 0) ∧
    (running (start [.rd 0x02]) ∧ hostNext (start [.rd 0x02]).env.program = some (.rd 0x02#8) ∧
      ∃ t, step (start [.rd 0x02]) = .next t) ∧
    (running (start [.wr 0xFF 7]) ∧ hostNext (start [.wr 0xFF 7]).env.program = some (.wr 0xFF#8 7#32) ∧
      ∃ t, step (start [.wr 0xFF 7]) = .next t) ∧
    (hostNext (start [.rd 0x00]).env.program = some (.rd 0x00#8) ∧ (∃ t, step (start [.rd 0x00]) = .next t) ∧
      ∀ off data, HostOp.rd 0x00#8 = .rd off ∨ HostOp.rd 0x00#8 = .wr off data → off.toNat % 4 = 0) ∧
    (let s := { start [.rd 0x02] with env := { (start [.rd 0x02]).env with rstIn := [true] } };
      rstNow s.env = true ∧ ∃ t, step s = .next t) := by
  refine ⟨⟨⟨rfl, rfl⟩, by decide, by decide, by decide, by decide⟩, ⟨⟨rfl, rfl⟩, rfl, ⟨_, rfl⟩⟩,
    ⟨⟨rfl, rfl⟩, rfl, ⟨_, rfl⟩⟩, ⟨rfl, ⟨_, rfl⟩, ?_⟩, ⟨rfl, ⟨_, rfl⟩⟩⟩
  rintro off data (h | h)
  · cases h; rfl
  · cases h

/-- V-MEM-5: a misaligned read is answered ERR with data 0, INT_PEND stays 0, and the host keeps the fault (I7). -/
theorem test_misaligned_read : (after (step (start [.rd 0x02]))).map
    (fun t => (t.env.busOut, t.env.busFaults, t.hif.intPend)) = some (.rd .err 0, [⟨0, .rd 0x02⟩], 0) := by decide

/-- A register, the last register, and the first and last reserved offset. -/
theorem witness_ReadsReturnTheViewAndChangeNothing : running (start []) ∧ (0x00#8).toNat % 4 = 0 ∧
    (0x58#8).toNat % 4 = 0 ∧ ((0x5C#8).toNat % 4 = 0 ∧ 0x5C ≤ (0x5C#8).toNat) ∧
    ((0xFC#8).toNat % 4 = 0 ∧ 0x5C ≤ (0xFC#8).toNat) := ⟨⟨rfl, rfl⟩, by decide, by decide, by decide, by decide⟩

/-- DP_IN unlocked; a read-only register (ID, DBG) and a reserved offset outside the list; a step with a write to
INT_EN and one without. -/
theorem witness_WriteTable : ((start []).dp.busy = false ∧
    ∀ off ∈ [0x00#8, 0x58#8, 0x5C#8, 0xFC#8], off.toNat % 4 = 0 ∧
      off ∉ [0x04#8, 0x0C#8, 0x10#8, 0x14#8, 0x18#8, 0x1C#8, 0x20#8, 0x24#8, 0x28#8, 0x2C#8, 0x30#8, 0x34#8, 0x4C#8]) ∧
    (running (start [.wr 0x0C 7]) ∧ hostNext (start [.wr 0x0C 7]).env.program = some (.wr 0x0C#8 7#32) ∧
      ∃ t, step (start [.wr 0x0C 7]) = .next t) ∧
    (running (start [.wr 0x10 7]) ∧ hostNext (start [.wr 0x10 7]).env.program = some (.wr 0x10#8 7#32) ∧
      (∀ data, HostOp.wr 0x10#8 7#32 ≠ .wr 0x0C#8 data) ∧ ∃ t, step (start [.wr 0x10 7]) = .next t) :=
  ⟨by decide, ⟨⟨rfl, rfl⟩, rfl, ⟨_, rfl⟩⟩, ⟨rfl, rfl⟩, rfl, by simp, ⟨_, rfl⟩⟩

/-- The first and the last timing register, with the step of such a write; a step with none. -/
theorem witness_TimingWriteStoresTheLowHalf : ((start []).rd.phase = .idle ∧
    ∀ off ∈ [0x14#8, 0x34#8], off ∈ [0x14#8, 0x18#8, 0x1C#8, 0x20#8, 0x24#8, 0x28#8, 0x2C#8, 0x30#8, 0x34#8]) ∧
    (running (start [.wr 0x34 9]) ∧ (start [.wr 0x34 9]).rd.phase = .idle ∧
      hostNext (start [.wr 0x34 9]).env.program = some (.wr 0x34#8 9#32)) ∧
    (running (start [.wr 0x38 9]) ∧ hostNext (start [.wr 0x38 9]).env.program = some (.wr 0x38#8 9#32) ∧
      (∃ t, step (start [.wr 0x38 9]) = .next t) ∧
      ∀ off data, off ∈ [0x14#8, 0x18#8, 0x1C#8, 0x20#8, 0x24#8, 0x28#8, 0x2C#8, 0x30#8, 0x34#8] →
        HostOp.wr 0x38#8 9#32 ≠ .wr off data) := by
  refine ⟨by decide, ⟨⟨rfl, rfl⟩, rfl, rfl⟩, ⟨rfl, rfl⟩, rfl, ⟨_, rfl⟩, ?_⟩
  rintro off data h e
  cases e
  revert h
  decide

theorem witness_LockedWritesAreRefused :
    ((inPhase .check 0 0 []).rd.phase ≠ .idle ∧
      0x14#8 ∈ [0x14#8, 0x18#8, 0x1C#8, 0x20#8, 0x24#8, 0x28#8, 0x2C#8, 0x30#8, 0x34#8] ∧
      running (inPhase .check 0 0 [.wr 0x14 5]) ∧ ∃ t, step (inPhase .check 0 0 [.wr 0x14 5]) = .next t) ∧
    ((dpBusy .fast 2 0 []).dp.busy = true ∧ running (dpBusy .fast 2 0 [.wr 0x4C 5]) ∧
      ∃ t, step (dpBusy .fast 2 0 [.wr 0x4C 5]) = .next t) :=
  ⟨⟨by decide, by decide, ⟨rfl, rfl⟩, ⟨_, rfl⟩⟩, ⟨rfl, ⟨rfl, rfl⟩, ⟨_, rfl⟩⟩⟩

/-- A clear in the cycle of a completion of the dew-point unit (V-MEM-15); a refusal. -/
theorem witness_PendingSetWinsOverClear :
    (running (dpBusy .fast 1 0 [.wr 0x10 0x2]) ∧
      hostNext (dpBusy .fast 1 0 [.wr 0x10 0x2]).env.program = some (.wr 0x10#8 0x2#32) ∧
      ∃ t, step (dpBusy .fast 1 0 [.wr 0x10 0x2]) = .next t ∧ t.hif.intPend = 0b010#3) ∧
    (running (start [.wr 0x04 0x5]) ∧ ∃ t, step (start [.wr 0x04 0x5]) = .next t ∧ t.hif.intPend = 0b100#3) :=
  ⟨⟨⟨rfl, rfl⟩, rfl, ⟨_, rfl, by decide⟩⟩, ⟨⟨rfl, rfl⟩, ⟨_, rfl, by decide⟩⟩⟩

theorem witness_HostErrorCauseFollowsTheTable : running (inPhase .stab 0 0 [.wr 0x14 0x5]) ∧
    hostNext (inPhase .stab 0 0 [.wr 0x14 0x5]).env.program = some (.wr 0x14#8 0x5#32) ∧
    ∃ t, step (inPhase .stab 0 0 [.wr 0x14 0x5]) = .next t ∧ t.hif.cause = .locked :=
  ⟨⟨rfl, rfl⟩, rfl, ⟨_, rfl, by decide⟩⟩

/-- A transaction and a computation that complete in the cycle of a refused operation of each kind. -/
theorem witness_CompletionInTheSameCycleDoesNotHelp :
    (∀ c ∈ [HostCmd.wr 0x04 0x1, .wr 0x14 5], running (inPhase .start 17999 0 [c]) ∧
      (inPhase .start 17999 0 [c]).rd.phase ≠ .idle ∧
      ∃ t, step (inPhase .start 17999 0 [c]) = .next t ∧ t.rd.phase = .idle) ∧
    (∀ c ∈ [HostCmd.wr 0x04 0x2, .wr 0x04 0x3, .wr 0x4C 5], running (dpBusy .fast 1 0 [c]) ∧
      (dpBusy .fast 1 0 [c]).dp.busy = true ∧ ∃ t, step (dpBusy .fast 1 0 [c]) = .next t ∧ t.dp.busy = false) := by
  constructor
  · intro c hc
    obtain rfl | rfl : c = .wr 0x04 0x1 ∨ c = .wr 0x14 5 := by simpa using hc
    · exact ⟨⟨rfl, rfl⟩, by decide, ⟨_, rfl, by decide⟩⟩
    · exact ⟨⟨rfl, rfl⟩, by decide, ⟨_, rfl, by decide⟩⟩
  · intro c hc
    obtain rfl | rfl | rfl : c = .wr 0x04 0x2 ∨ c = .wr 0x04 0x3 ∨ c = .wr 0x4C 5 := by simpa using hc
    · exact ⟨⟨rfl, rfl⟩, rfl, ⟨_, rfl, rfl⟩⟩
    · exact ⟨⟨rfl, rfl⟩, rfl, ⟨_, rfl, rfl⟩⟩
    · exact ⟨⟨rfl, rfl⟩, rfl, ⟨_, rfl, rfl⟩⟩

/-- A POLL that ends (WAIT_RD on an idle unit) and one that repeats. -/
theorem witness_PollRepeatsUntilItsConditionHolds :
    (running (start waitRd) ∧ (0x08#8).toNat % 4 = 0 ∧ (start waitRd).env.program = .poll 0x08#8 0x1#32 0x0#32 :: [] ∧
      (∃ t, step (start waitRd) = .next t) ∧ view (start waitRd) 0x08#8 &&& 0x1#32 = 0x0#32) ∧
    (running (inPhase .stab 0 0 waitRd) ∧ (∃ t, step (inPhase .stab 0 0 waitRd) = .next t) ∧
      view (inPhase .stab 0 0 waitRd) 0x08#8 &&& 0x1#32 ≠ 0x0#32) :=
  ⟨⟨⟨rfl, rfl⟩, rfl, rfl, ⟨_, rfl⟩, by decide⟩, ⟨⟨rfl, rfl⟩, ⟨_, rfl⟩, by decide⟩⟩

theorem witness_DewpointProgramStartsOnItsOperands :
    running (start (dewpointProg (-32768) 65535 ++ [])) ∧ noReset (start (dewpointProg (-32768) 65535 ++ [])) ∧
    (start (dewpointProg (-32768) 65535 ++ [])).dp.busy = false ∧ (-32768 : Int) ≤ -32768 ∧ (32767 : Int) ≤ 32767 ∧
    (65535 : Nat) ≤ 65535 ∧
    (start (dewpointProg (-32768) 65535 ++ [])).env.program = dewpointProg (-32768) 65535 ++ [] :=
  ⟨⟨rfl, rfl⟩, start_noReset _, rfl, by decide, by decide, by decide, rfl⟩

theorem witness_ReadingOfVariant0 : (start []).params.variant = .v0 := rfl

/-- A negative and a positive temperature of the higher-resolution variant. -/
theorem witness_ReadingOfVariant1 : (State.resetWith { params0 with variant := .v1 }).params.variant = .v1 ∧
    (0x80#8).getLsbD 7 = true ∧ (0x7F#8).getLsbD 7 = false := by decide

theorem witness_PackIsInCaptureOrder : (List.replicate 40 true).length = 40 := by decide

/-- A tick (TICK_DIV = 0 and PRESC = 0) and a cycle that is none. -/
theorem witness_PulseTimerStep :
    (running (start []) ∧ (∃ t, step (start []) = .next t) ∧
      (start []).timing.tickDiv.toNat ≤ (start []).timer.presc.toNat) ∧
    (let s := { start [] with timing := { (start []).timing with tickDiv := 1 } };
      running s ∧ (∃ t, step s = .next t) ∧ s.timer.presc.toNat < s.timing.tickDiv.toNat) :=
  ⟨⟨⟨rfl, rfl⟩, ⟨_, rfl⟩, by decide⟩, ⟨⟨rfl, rfl⟩, ⟨_, rfl⟩, by decide⟩⟩

/-- CHECK, whose clause samples each level; each hold at N = 0, 1 and 3: max(N, 1) − 1 = 0, 0 and 2 ticks before the exit tick. -/
theorem witness_HoldLastsItsTicks :
    ((inPhase .check 0 0 []).rd.phase = .check ∧ (inPhase .check 0 0 []).rd.cnt = 0#16) ∧
    ∀ x ∈ [((0 : Half), 0), (1, 0), (3, 2)], let tm := { (start []).timing with tStab := x.1, tStart := x.1, tSample := x.1 }
      ((List.replicate x.2 true).length < max tm.tStab.toNat 1 ∧
        (List.replicate x.2 true).length + 1 = max tm.tStab.toNat 1) ∧
      ((List.replicate x.2 true).length < max tm.tStart.toNat 1 ∧
        (List.replicate x.2 true).length + 1 = max tm.tStart.toNat 1) ∧
      ((List.replicate x.2 true).length < max tm.tSample.toNat 1 ∧
        (List.replicate x.2 true).length + 1 = max tm.tSample.toNat 1) ∧
      (∀ p ∈ [Phase.stab, .start, .bSample], (inPhase p 0 0 []).rd.phase = p ∧ (inPhase p 0 0 []).rd.cnt = 0#16) := by
  decide

/-- CHECK's polarity (42_frame_decoder.md R143): a low line ends the transaction BUS_BUSY, a high one enters STAB. -/
theorem witness_HoldLastsItsTicks_check :
    (decoderTicks (start []).timing (inPhase .check 0 0 []).rd [false]).lastCode = .busBusy ∧
    (decoderTicks (start []).timing (inPhase .check 0 0 []).rd [true]).phase = .stab := by decide

/-- Each wait, with the sample lists of both clauses at any timeout, B_HIGH before and after bit 40. -/
theorem witness_WaitMakesAtMostTimeoutPlusOnePolls :
    (∀ p ∈ [Phase.wPres, .wSyncL, .wSyncH, .bLow, .bHigh], ∃ x, waitTable (start []).timing p = some x) ∧
    (inPhase .bHigh 0 39 []).rd.cnt = 0#16 ∧
    ((inPhase .wPres 0 0 []).rd.phase ≠ .bHigh ∨ (inPhase .wPres 0 0 []).rd.bitcnt.toNat < 40) ∧
    ((inPhase .bHigh 0 39 []).rd.phase ≠ .bHigh ∨ (inPhase .bHigh 0 39 []).rd.bitcnt.toNat < 40) ∧
    ((inPhase .bHigh 0 40 []).rd.phase = .bHigh ∧ 40 ≤ (inPhase .bHigh 0 40 []).rd.bitcnt.toNat) ∧
    (∀ (bound : Half) (level : Bool),
      ((List.replicate bound.toNat (!level)).length ≤ bound.toNat ∧ ∀ l ∈ List.replicate bound.toNat (!level), l ≠ level) ∧
      ((List.replicate (bound.toNat + 1) (!level)).length = bound.toNat + 1 ∧
        ∀ l ∈ List.replicate (bound.toNat + 1) (!level), l ≠ level)) := by
  refine ⟨?_, rfl, by decide, by decide, by decide, fun bound level => ⟨⟨by simp, ?_⟩, ⟨by simp, ?_⟩⟩⟩
  case refine_2 => intro l h; rw [List.eq_of_mem_replicate h]; simp
  case refine_3 => intro l h; rw [List.eq_of_mem_replicate h]; simp
  intro p hp
  obtain rfl | rfl | rfl | rfl | rfl :
    p = .wPres ∨ p = .wSyncL ∨ p = .wSyncH ∨ p = .bLow ∨ p = .bHigh := by simpa using hp
  all_goals exact ⟨_, rfl⟩

/-- Widths 1, D and D + 1 for T_SAMPLE = 40. -/
theorem witness_PulseWidthClassifier : (inPhase .bLow 0 0 []).rd.phase = .bLow ∧
    ∀ w ∈ [1, 40, 41], 1 ≤ w ∧ w ≤ max (start []).timing.tSample.toNat 1 + 1 := by decide

/-- The narrowest and the widest accepted pulses. -/
theorem witness_AcceptedPulsesCaptureTheFrame :
    (inPhase .bLow 0 0 []).rd.phase = .bLow ∧ (inPhase .bLow 0 0 []).rd.cnt = 0#16 ∧
    (inPhase .bLow 0 0 []).rd.bitcnt = 0#6 ∧
    (List.replicate 20 (0, 1) ++ List.replicate 20 (75, 91)).length = 40 ∧
    ∀ x ∈ List.replicate 20 (0, 1) ++ List.replicate 20 (75, 91), acceptedPulse (start []).timing x.1 x.2 := by
  refine ⟨rfl, rfl, rfl, by decide, ?_⟩
  intro x hx
  rcases List.mem_append.1 hx with h | h <;> rw [List.eq_of_mem_replicate h]
  · exact ⟨by decide, by decide, by decide⟩
  · exact ⟨by decide, by decide, by decide⟩

theorem witness_PhasesFollowTheOrder : running (start []) ∧ ∃ t, step (start []) = .next t := ⟨⟨rfl, rfl⟩, ⟨_, rfl⟩⟩

/-- A busy unit off and on a tick; an idle one without and with READ. -/
theorem witness_ReadUnitMovesOnlyByTickOrRead :
    (let s := { inPhase .stab 0 0 [] with timing := { (start []).timing with tickDiv := 1 } };
      running s ∧ (∃ t, step s = .next t) ∧ s.rd.phase ≠ .idle ∧ s.timer.presc.toNat < s.timing.tickDiv.toNat) ∧
    (running (inPhase .stab 0 0 []) ∧ (∃ t, step (inPhase .stab 0 0 []) = .next t) ∧
      (inPhase .stab 0 0 []).rd.phase ≠ .idle ∧
      (inPhase .stab 0 0 []).timing.tickDiv.toNat ≤ (inPhase .stab 0 0 []).timer.presc.toNat) ∧
    ((start []).rd.phase = .idle ∧ hostNext (start []).env.program ≠ some (.wr 0x04#8 0x1#32)) ∧
    (running (start [.wr 0x04 1]) ∧ (∃ t, step (start [.wr 0x04 1]) = .next t) ∧
      hostNext (start [.wr 0x04 1]).env.program = some (.wr 0x04#8 0x1#32)) :=
  ⟨⟨⟨rfl, rfl⟩, ⟨_, rfl⟩, by decide, by decide⟩, ⟨⟨rfl, rfl⟩, ⟨_, rfl⟩, by decide, by decide⟩, by decide,
    ⟨rfl, rfl⟩, ⟨_, rfl⟩, rfl⟩

/-- The read unit's invariant in a phase with nothing captured yet and no completion before. -/
theorem readInv_inPhase {p : Phase} {c : Half} {b : BitVec 6} {prog : List HostCmd} (h1 : bitsFit p b.toNat = true)
    (h2 : cntFits (start []).timing p c.toNat = true) (h3 : p ≠ .idle) :
    ReadInv (inPhase p c b prog).timing (inPhase p c b prog).rd where
  bits := h1
  bits40 := fun h => absurd h h3
  cnt := h2
  record := rfl
  noValid := fun _ => rfl
  validOk := fun h => by cases h
  noRaw := fun _ => rfl
  rawFull := fun h => by cases h
  successValid := fun h => by cases h

/-- A completing step (BAD_START), and one that does not complete. -/
theorem witness_CompletionRecordIsPrecise :
    (ReadInv (inPhase .start 17999 0 []).timing (inPhase .start 17999 0 []).rd ∧ running (inPhase .start 17999 0 []) ∧
      (inPhase .start 17999 0 []).rd.phase ≠ .idle ∧
      ∃ t, step (inPhase .start 17999 0 []) = .next t ∧ t.rd.phase = .idle) ∧
    (ReadInv (inPhase .start 0 0 []).timing (inPhase .start 0 0 []).rd ∧ running (inPhase .start 0 0 []) ∧
      ∃ t, step (inPhase .start 0 0 []) = .next t ∧ t.rd.phase ≠ .idle) :=
  ⟨⟨readInv_inPhase (by decide) (by decide) (by decide), ⟨rfl, rfl⟩, by decide, ⟨_, rfl, by decide⟩⟩,
    ⟨readInv_inPhase (by decide) (by decide) (by decide), ⟨rfl, rfl⟩, ⟨_, rfl, by decide⟩⟩⟩

/-- The end of bit 40 with a good and with a bad checksum; a step that is no such end. -/
theorem witness_OnlySuccessReleasesAFrame :
    (let s := { inPhase .bHigh 0 40 [] with env := { (start []).env with lineIn := [false] } };
      running s ∧ (∃ t, step s = .next t) ∧ s.rd.phase = .bHigh ∧ 40 ≤ s.rd.bitcnt.toNat ∧
      s.timing.tickDiv.toNat ≤ s.timer.presc.toNat ∧ lineNow s.env = false ∧ checksumOk (pack s.rd.shift) = true) ∧
    (let s := { inPhase .bHigh 0 40 [] with
        rd := { (inPhase .bHigh 0 40 []).rd with shift := 1 }, env := { (start []).env with lineIn := [false] } };
      running s ∧ (∃ t, step s = .next t) ∧ s.rd.phase = .bHigh ∧ 40 ≤ s.rd.bitcnt.toNat ∧
      s.timing.tickDiv.toNat ≤ s.timer.presc.toNat ∧ lineNow s.env = false ∧ checksumOk (pack s.rd.shift) = false) ∧
    (running (start []) ∧ (∃ t, step (start []) = .next t) ∧ ¬ ((start []).rd.phase = .bHigh)) :=
  ⟨⟨⟨rfl, rfl⟩, ⟨_, rfl⟩, by decide, by decide, by decide, rfl, by decide⟩,
    ⟨⟨rfl, rfl⟩, ⟨_, rfl⟩, by decide, by decide, by decide, rfl, by decide⟩, ⟨rfl, rfl⟩, ⟨_, rfl⟩, by decide⟩

/-- A valid frame for the single-bit error; two bytes that differ in one bit for the double one. -/
theorem witness_ChecksumDetectsSingleBitErrors :
    checksumOk ⟨0x32, 0x00, 0x18, 0x00, 0x4A⟩ = true ∧ (7 < 8) ∧
    ((0 : Fin 5).val < 4 ∧ (3 : Fin 5).val < 4 ∧ (0 : Fin 5) ≠ 3 ∧
      ((⟨0x00, 0, 0, 0x80, 0x80⟩ : Frame).byte 0).getLsbD 7 = false ∧
      ((⟨0x00, 0, 0, 0x80, 0x80⟩ : Frame).byte 3).getLsbD 7 = true) := by decide

/-- A quotient of each sign, a tie, and the smallest v. -/
theorem witness_IntegerOperationsRoundAsStated : ((-7 : Int) ≠ 0 ∧ (2 : Int) ≠ 0) ∧ ((0 : Int) < 2) ∧
    (2 * ((-3 : Int) - rdiv (-3) 2 * 2)).natAbs = (2 : Int).natAbs ∧ 1 ≤ 1 := by decide

theorem witness_LogarithmsLieInTheirOctave : (1 ≤ 1 ∧ 1 = 2 ^ (1 : Nat).log2) ∧ (1 ≤ 65535 ∧ 65535 ≤ 65535) ∧
    (32768 ≤ 65535 ∧ 32768 = 2 ^ (32768 : Nat).log2) := by decide

theorem witness_AirSaturationGivesTheTemperature : ((-2376 : Int) ≤ -2376 ∧ (-2376 : Int) ≤ 32767) ∧
    ((-2376 : Int) ≤ 32767 ∧ (32767 : Int) ≤ 32767) := by decide

/-- DOMAIN by each of its three causes, in both modes (V-DP-10, V-DP-11, V-DP-12). -/
theorem witness_DomainFlagOfBothModes : ∀ x ∈ [((240 : Int), 0), (-2377, 500), (32767, 65535)],
    (preciseDp x.1 x.2).domain = true ∧ (fastDp x.1 x.2).domain = true := by decide

/-- A saturated result in both modes (V-DP-13), and d > 0. -/
theorem witness_SaturationOnlyAtTheTop : (∀ m ∈ [DpMode.precise, .fast], (dpResult m 0x07D04E20#32).sat = true) ∧
    0 < aQ - 1057006 := by decide

theorem witness_FastDeviatesByAtMostOneDegree : ((0 : Int) ≤ 0 ∧ (0 : Int) ≤ 500 ∧ 200 ≤ 200 ∧ 200 ≤ 900) ∧
    ((0 : Int) ≤ 500 ∧ (500 : Int) ≤ 500 ∧ 200 ≤ 900 ∧ 900 ≤ 900) := by decide

/-- A busy unit in both modes, at the largest and the smallest count. -/
theorem witness_DewPointCompletesAfterItsLatency : ∀ x ∈ [(DpMode.precise, (255 : Byte)), (.fast, 1)],
    let s := dpBusy x.1 x.2 0x01F400F0 []
    DpInv s.dp ∧ running s ∧ noReset s ∧ hostOk s ∧ s.dp.busy = true ∧ 0 < s.dp.cnt.toNat := by
  intro x hx
  obtain rfl | rfl : x = (DpMode.precise, (255 : Byte)) ∨ x = (.fast, 1) := by simpa using hx
  all_goals
    refine ⟨⟨by decide, fun _ => ⟨rfl, rfl, rfl, rfl, rfl⟩, fun h => by cases h⟩, ⟨rfl, rfl⟩, ?_, ?_, rfl, by decide⟩
    · intro b hb; cases hb
    · intro c hc; cases hc

theorem witness_ResetValues : (State.resetWith params0 = State.resetWith params0 ∨
      (params0 = Config.params ∧ State.resetWith params0 = State.reset)) ∧
    (State.reset = State.resetWith Config.params ∨ (Config.params = Config.params ∧ State.reset = State.reset)) :=
  ⟨.inl rfl, .inr ⟨rfl, rfl⟩⟩

theorem witness_ResetFromAnyState : ∀ c ∈ [HostCmd.rd 0x50, .wr 0x04 1],
    rstNow { (dpBusy .fast 2 7 [c]).env with rstIn := [true] } = true := by decide

theorem witness_NoHang :
    (running (start []) ∧ ∃ t, step (start []) = .next t) ∧ (running (start [.narrow 0 1]) ∧
      hostNext (start [.narrow 0 1]).env.program = none ∧ step (start [.narrow 0 1]) = .refused .narrowAccess) ∧
    (∃ s : State, rstNow s.env = false ∧ s.env.wasReset = false ∧ step s = .fault .beforeFirstReset) :=
  ⟨⟨⟨rfl, rfl⟩, ⟨_, rfl⟩⟩, ⟨⟨rfl, rfl⟩, rfl, rfl⟩,
    ⟨{ start [] with env := { (start []).env with wasReset := false } }, rfl, rfl, rfl⟩⟩

theorem witness_ParametersNeverChange : ∃ t, step (start []) = .next t := ⟨_, rfl⟩

theorem witness_IdleBlockChangesOnlyCounters : running (start []) ∧ (start []).rd.phase = .idle ∧
    (start []).dp.busy = false ∧ hostNext (start []).env.program = some .idle ∧ ∃ t, step (start []) = .next t :=
  ⟨⟨rfl, rfl⟩, rfl, rfl, rfl, ⟨_, rfl⟩⟩

/-- A step of a busy read unit, with the dew-point unit replaced by a busy one; and the other way round. -/
theorem witness_UnitsAreIndependent : (∃ t, step (inPhase .stab 0 0 []) = .next t) ∧
    (∃ t', step { inPhase .stab 0 0 [] with dp := (dpBusy .fast 2 7 []).dp, hif := ⟨7, 7, .busy⟩ } = .next t') ∧
    (∃ t', step { inPhase .stab 0 0 [] with
        rd := ReadUnit.atReset, timing := (start []).timing, timer := ⟨5, 9⟩, lineQ := false, hif := ⟨7, 7, .busy⟩ } =
      .next t') := ⟨⟨_, rfl⟩, ⟨_, rfl⟩, ⟨_, rfl⟩⟩

/-- Both units busy, with no host operation and with writes they refuse. -/
theorem witness_BusyUnitsIgnoreTheHost :
    (running (inPhase .stab 0 0 []) ∧ (∃ t, step (inPhase .stab 0 0 []) = .next t) ∧
      (∃ t', step { inPhase .stab 0 0 [] with env := { (inPhase .stab 0 0 []).env with program := [.wr 0x04 1] } } =
        .next t') ∧ (inPhase .stab 0 0 []).rd.phase ≠ .idle) ∧
    (running (dpBusy .fast 1 7 []) ∧ (∃ t, step (dpBusy .fast 1 7 []) = .next t) ∧
      (∃ t', step { dpBusy .fast 1 7 [] with env := { (dpBusy .fast 1 7 []).env with program := [.wr 0x4C 1] } } =
        .next t') ∧ (dpBusy .fast 1 7 []).dp.busy = true) :=
  ⟨⟨⟨rfl, rfl⟩, ⟨_, rfl⟩, ⟨_, rfl⟩, by decide⟩, ⟨⟨rfl, rfl⟩, ⟨_, rfl⟩, ⟨_, rfl⟩, rfl⟩⟩

theorem witness_InvariantHoldsAtReset : params0.wf := by decide

/-- A state in the middle of a transaction meets the invariant, and steps. -/
theorem witness_EveryStepKeepsTheInvariant :
    Inv (inPhase .bLow 75 39 []) ∧ ∃ t, step (inPhase .bLow 75 39 []) = .next t :=
  ⟨⟨by decide, readInv_inPhase (by decide) (by decide) (by decide),
    ⟨by decide, fun _ => ⟨rfl, rfl, rfl, rfl, rfl⟩, fun h => by cases h⟩⟩, ⟨_, rfl⟩⟩

theorem witness_TransactionEndsWithinItsBound : Inv (inPhase .check 0 0 []) ∧ running (inPhase .check 0 0 []) ∧
    noReset (inPhase .check 0 0 []) ∧ hostOk (inPhase .check 0 0 []) ∧ (inPhase .check 0 0 []).rd.phase = .check :=
  ⟨⟨by decide, readInv_inPhase (by decide) (by decide) (by decide),
    ⟨by decide, fun _ => ⟨rfl, rfl, rfl, rfl, rfl⟩, fun h => by cases h⟩⟩, ⟨rfl, rfl⟩,
    (by intro b hb; cases hb), (by intro c hc; cases hc), rfl⟩

end Sys2Proof.Tests
end

section
/-! PROOFS. The scope family: the integer operations (00_scope.md R11) and the fixed parameters (00_scope.md R6). -/

namespace Sys2Proof.Machine

/-! ## `tdiv` -/

/-- What `tdiv` misses is the library's remainder of the truncated division. -/
theorem sub_tdiv_mul (n d : Int) : n - tdiv n d * d = n.tmod d := by
  rw [tdiv_eq, Int.tmod_def, Int.mul_comm]

/-- The miss of `tdiv` is smaller in size than the divisor. -/
theorem natAbs_sub_tdiv_mul_lt (n : Int) {d : Int} (hd : d ≠ 0) : (n - tdiv n d * d).natAbs < d.natAbs := by
  rw [sub_tdiv_mul, Int.natAbs_tmod]
  exact Nat.mod_lt _ (Int.natAbs_pos.mpr hd)

/-- `tdiv` never goes past the dividend, in size: it truncates toward zero. -/
theorem natAbs_tdiv_mul_le (n d : Int) : (tdiv n d * d).natAbs ≤ n.natAbs := by
  rw [tdiv_eq, Int.natAbs_mul, Int.natAbs_tdiv]
  exact Nat.div_mul_le_self _ _

/-! ## `rdiv` -/

/-- For n ≥ 0 the lower bound of `rdiv_nearest` is strict: a tie can only be rounded up. -/
theorem rdiv_mul_gt_of_nonneg {n d : Int} (hn : 0 ≤ n) (hd : 0 < d) : 2 * n - d < 2 * (rdiv n d * d) := by
  have hfloor := Int.lt_ediv_add_one_mul_self (2 * n + d) (show 0 < 2 * d by omega)
  have hexpand : ∀ q : Int, (q + 1) * (2 * d) = 2 * (q * d) + 2 * d := fun q => by ring
  rw [hexpand] at hfloor
  rw [rdiv, if_pos hn]
  omega

/-- `rdiv` of a negative dividend is by symmetry that of its opposite. -/
theorem rdiv_of_neg {n : Int} (hn : n < 0) (d : Int) : rdiv n d = -rdiv (-n) d := by
  rw [rdiv, rdiv, if_neg (by omega), if_pos (by omega), Int.mul_neg, Int.neg_mul]

/-- For n < 0 the upper bound of `rdiv_nearest` is strict: a tie can only be rounded down. -/
theorem rdiv_mul_lt_of_neg {n d : Int} (hn : n < 0) (hd : 0 < d) : 2 * (rdiv n d * d) < 2 * n + d := by
  have hopposite := rdiv_mul_gt_of_nonneg (show 0 ≤ -n by omega) hd
  rw [rdiv_of_neg hn, Int.neg_mul]
  omega

/-- Twice the miss of `rdiv` is at most the divisor. -/
theorem natAbs_two_mul_sub_rdiv_mul_le (n : Int) {d : Int} (hd : 0 < d) :
    (2 * (n - rdiv n d * d)).natAbs ≤ d.natAbs := by
  obtain ⟨hlow, hhigh⟩ := rdiv_nearest n hd
  omega

/-- In a tie `rdiv` goes away from zero. -/
theorem natAbs_lt_rdiv_mul_of_tie {n d : Int} (hd : 0 < d)
    (htie : (2 * (n - rdiv n d * d)).natAbs = d.natAbs) : n.natAbs < (rdiv n d * d).natAbs := by
  rcases lt_or_ge n 0 with hn | hn
  · have hstrict := rdiv_mul_lt_of_neg hn hd
    omega
  · have hstrict := rdiv_mul_gt_of_nonneg hn hd
    omega

/-! ## `msb` -/

/-- `msb` of a positive number is the index of its highest set bit. -/
theorem msb_bounds {v : Nat} (hv : 1 ≤ v) : 2 ^ msb v ≤ v ∧ v < 2 ^ (msb v + 1) :=
  (Nat.log2_eq_iff (by omega)).mp rfl

/-! ## The obligations -/

/-- Settles O42: `tdiv` by the library's truncated division, `rdiv` by which of its two bounds is strict, `msb` by the
library's logarithm. -/
theorem integerOperationsRoundAsStated : Obligations.IntegerOperationsRoundAsStated :=
  ⟨fun n d hd => ⟨natAbs_sub_tdiv_mul_lt n hd, natAbs_tdiv_mul_le n d⟩,
    fun n _ hd => ⟨natAbs_two_mul_sub_rdiv_mul_le n hd, natAbs_lt_rdiv_mul_of_tie hd⟩,
    fun _ hv => msb_bounds hv⟩

/-- Settles O54: a reset cycle keeps the parameters, and so do every host operation and the units' advance. -/
theorem parametersNeverChange : Obligations.ParametersNeverChange := by
  intro s t h
  obtain ⟨-, rfl⟩ | ⟨-, op, s1, -, -, heffect, rfl⟩ := step_next_cases h
  · exact resetCycle_params s
  · rw [advance_params, heffect.params_eq]

end Sys2Proof.Machine
end

section
/-! PROOFS. The state family: the fields of the composed registers (10_state.md R21-R23, R26, R44, R46), the reset
values (10_state.md R54) and the invariant (10_state.md R55). -/

namespace Sys2Proof.Machine

/-! ## Register layouts -/

/-- A field of a word is fixed by the bits it takes. -/
theorem extractLsb'_eq_of_getLsbD {w n k : Nat} {x : BitVec w} {v : BitVec n}
    (hbits : ∀ i < n, x.getLsbD (k + i) = v.getLsbD i) : x.extractLsb' k n = v := by
  ext i hi
  rw [BitVec.getElem_extractLsb', hbits i hi, BitVec.getLsbD_eq_getElem hi]

theorem view_status (s : State) : view s 0x08#8 = statusWord s := rfl

theorem view_dpOut (s : State) : view s 0x50#8 = dpOutWord s.dp := rfl

theorem view_dbg (s : State) : view s 0x58#8 = dbgWord s.rd s.lineQ := rfl

/-- PIN_MODE by the phase (10_state.md R21, R23). -/
theorem padModeBits_padMode (p : Phase) :
    padModeBits (padMode p) = if p = .start then 1#2 else if p = .stab then 2#2 else 0#2 := by
  cases p <;> rfl

/-- Settles O25: each field holds the bits that `statusWord_getLsbD` names; the code tables are evaluated. -/
theorem statusFields : Obligations.StatusFields := by
  refine ⟨fun s => ?_, rfl, rfl, rfl⟩
  rw [view_status]
  refine ⟨statusWord_getLsbD s 0, statusWord_getLsbD s 1, statusWord_getLsbD s 2, statusWord_getLsbD s 3,
    ?_, ?_, ?_, ?_, ?_⟩ <;> refine extractLsb'_eq_of_getLsbD fun i hi => ?_
  all_goals
    rw [statusWord_getLsbD]
    simp (disch := omega) only [if_neg, if_pos, Nat.add_sub_cancel_left, BitVec.getLsbD_zero]

/-- Settles O26: each field holds the bits that `dpOutWord_getLsbD` names. -/
theorem dpOutFields : Obligations.DpOutFields := by
  intro s
  rw [view_dpOut]
  refine ⟨extractLsb'_eq_of_getLsbD fun i hi => ?_, dpOutWord_getLsbD s.dp 16, dpOutWord_getLsbD s.dp 17,
    dpOutWord_getLsbD s.dp 18, dpOutWord_getLsbD s.dp 19, extractLsb'_eq_of_getLsbD fun i hi => ?_,
    dpOutWord_getLsbD s.dp 30, dpOutWord_getLsbD s.dp 31⟩
  all_goals
    rw [dpOutWord_getLsbD]
    simp (disch := omega) only [if_neg, if_pos, Nat.zero_add, BitVec.getLsbD_zero]

/-- Settles O27: each field holds the bits that `dbgWord_getLsbD` names. -/
theorem dbgFields : Obligations.DbgFields := by
  intro s
  rw [view_dbg, ← padModeBits_padMode]
  refine ⟨?_, ?_, dbgWord_getLsbD s.rd s.lineQ 10, ?_, ?_, ?_⟩ <;> refine extractLsb'_eq_of_getLsbD fun i hi => ?_
  all_goals
    rw [dbgWord_getLsbD]
    simp (disch := omega) only [if_neg, if_pos, Nat.zero_add, Nat.add_sub_cancel_left, BitVec.getLsbD_zero]

/-- Settles O41: the table of phases against the table of pad modes. -/
theorem padIsDrivenOnlyInStabAndStart : Obligations.PadIsDrivenOnlyInStabAndStart := by
  intro p
  cases p <;> rfl

/-! ## Reset values -/

/-- T_START's reset value by the variant (10_state.md R31). -/
theorem resetTStart_eq (v : Variant) : resetTStart v = if v = .v0 then 18000#16 else 2000#16 := by
  cases v <;> rfl

/-- ID by the variant (10_state.md R24). -/
theorem idWord_eq (v : Variant) : idWord v = if v = .v0 then 0x44540100#32 else 0x44540101#32 := by
  cases v <;> rfl

/-- READING of no frame is 0 in both variants (43_frame_validator.md R177). -/
theorem readingWord_zero (v : Variant) : readingWord v Frame.zero = 0#32 := by
  cases v <;> rfl

/-- The timing registers after reset (10_state.md R54). -/
theorem Timing.resetWith_eq (p : Params) : Timing.resetWith p =
    { tickDiv := p.tickDivReset, tStab := 1000#16, tStart := if p.variant = .v0 then 18000#16 else 2000#16,
      toPres := 40#16, toSyncL := 100#16, toSyncH := 100#16, toBitL := 75#16, tSample := 40#16, toBitH := 50#16 } := by
  rw [← resetTStart_eq]
  rfl

theorem statusWord_resetWith (p : Params) : statusWord (State.resetWith p) = 0x000000F0#32 := by
  simp only [statusWord, State.resetWith, ReadUnit.atReset, DpUnit.atReset]
  decide

theorem dpOutWord_atReset : dpOutWord DpUnit.atReset = 0#32 := by decide

theorem dbgWord_atReset : dbgWord ReadUnit.atReset true = 0x00000400#32 := by decide

theorem irq_eq_false_of_intPend {h : HostIf} (hpend : h.intPend = 0) : irq h = false := by
  simp [irq, hpend]

/-- Settles O51: only T_START, READING and ID depend on the parameters; the rest is evaluated. -/
theorem resetValues : Obligations.ResetValues := by
  intro p s hs
  obtain rfl : s = State.resetWith p := by
    rcases hs with hs | ⟨rfl, hs⟩ <;> exact hs
  exact ⟨rfl, Timing.resetWith_eq p, rfl, rfl, rfl, rfl, statusWord_resetWith p, readingWord_zero p.variant,
    dpOutWord_atReset, dbgWord_atReset, rfl, irq_eq_false_of_intPend rfl, idWord_eq p.variant⟩

/-! ## The invariant at reset -/

theorem readInv_atReset (tm : Timing) : ReadInv tm ReadUnit.atReset where
  bits := rfl
  bits40 := fun _ h => absurd h (by decide)
  cnt := rfl
  record := rfl
  noValid := fun _ => rfl
  validOk := nofun
  noRaw := fun _ => rfl
  rawFull := nofun
  successValid := nofun

theorem dpInv_atReset : DpInv DpUnit.atReset where
  busy := by decide
  notDone := fun _ => ⟨rfl, rfl, rfl, rfl, rfl⟩
  domain := nofun

theorem inv_resetWith {p : Params} (hp : p.wf) : Inv (State.resetWith p) :=
  ⟨hp, readInv_atReset _, dpInv_atReset⟩

/-- The latency of any latency constant is not 0 (00_scope.md R6). -/
theorem latency_ne_zero (k : Fin 255) : Config.latency k ≠ 0 := by
  have hk := k.isLt
  simp only [Config.latency]
  bv_omega

theorem config_params_wf : Config.params.wf :=
  ⟨latency_ne_zero _, latency_ne_zero _⟩

/-- Settles O58: the reset values meet each clause, and the open latencies lie in 1..255. -/
theorem invariantHoldsAtReset : Obligations.InvariantHoldsAtReset :=
  ⟨inv_resetWith config_params_wf, fun _ hp => inv_resetWith hp⟩

/-! ## The read unit keeps its invariant -/

theorem rdBusy_eq_false_iff (r : ReadUnit) : rdBusy r = false ↔ r.phase = .idle := by
  simp [rdBusy]

theorem rdBusy_eq_true_iff (r : ReadUnit) : rdBusy r = true ↔ r.phase ≠ .idle := by
  simp [rdBusy]

/-- In no phase has a transaction more than 40 bits. -/
theorem bitsFit_le {p : Phase} {n : Nat} (h : bitsFit p n = true) : n ≤ 40 := by
  cases p <;> simp [bitsFit] at h <;> omega

/-- A running transaction with 40 bits is in B_HIGH. -/
theorem bitsFit_eq_bHigh {p : Phase} (hp : p ≠ .idle) (h : bitsFit p 40 = true) : p = .bHigh := by
  cases p <;> simp_all [bitsFit]

/-- In IDLE the timing registers do not bound CNT. -/
theorem ReadInv.of_idle {tm tm' : Timing} {r : ReadUnit} (h : ReadInv tm r) (hp : r.phase = .idle) : ReadInv tm' r :=
  { h with cnt := by rw [hp]; rfl }

/-- While a transaction runs, RAW is empty (40_commands.md R103). -/
theorem ReadInv.not_rawFull {tm : Timing} {r : ReadUnit} (h : ReadInv tm r) (hp : r.phase ≠ .idle) :
    ¬ r.rawFull = true := by
  intro hfull
  obtain ⟨hidle, -⟩ := h.rawFull hfull
  exact hp hidle

/-- The start of a transaction keeps the invariant (40_commands.md R103). -/
theorem ReadInv.accept {tm : Timing} {r : ReadUnit} (h : ReadInv tm r) : ReadInv tm r.accept :=
  { h with
    bits := rfl
    bits40 := nofun
    cnt := rfl
    noRaw := fun _ => rfl
    rawFull := nofun }

/-- A running transaction that goes on changes PHASE, CNT, BITCNT and SHIFT only, so only the clauses on BITCNT and CNT
are at stake. -/
theorem ReadInv.of_running {tm : Timing} {r : ReadUnit} (h : ReadInv tm r) (hp : r.phase ≠ .idle) {p : Phase} {c : Half}
    {b : BitVec 6} (sh : BitVec 40) (hp' : p ≠ .idle) (hbits : bitsFit p b.toNat = true)
    (hcnt : cntFits tm p c.toNat = true) : ReadInv tm { r with phase := p, cnt := c, bitcnt := b, shift := sh } :=
  { h with
    bits := hbits
    bits40 := fun hidle => absurd hidle hp'
    cnt := hcnt
    rawFull := fun hfull => absurd hfull (h.not_rawFull hp) }

/-- CNT fits every phase at its entry. -/
theorem cntFits_zero (tm : Timing) (p : Phase) : cntFits tm p 0 = true := by
  cases p <;> simp [cntFits]

/-- A phase that waits has room for one more tick in CNT. -/
theorem Waits.cnt_succ {tm : Timing} {r : ReadUnit} (h : Waits tm r) : (r.cnt + 1).toNat = r.cnt.toNat + 1 := by
  cases h <;> bv_omega

/-- CNT still fits a phase that waits when it has counted the tick. -/
theorem Waits.cntFits_succ {tm : Timing} {r : ReadUnit} (h : Waits tm r) :
    cntFits tm r.phase (r.cnt + 1).toNat = true := by
  rw [h.cnt_succ]
  cases h with
  | _ hp hc => rw [hp]; exact decide_eq_true (by omega)

theorem Enters.phase_ne_idle {r : ReadUnit} {p : Phase} (h : Enters r p) : p ≠ .idle := by
  cases h <;> decide

/-- A phase is entered with the bits it needs. -/
theorem Enters.bitsFit {r : ReadUnit} {p : Phase} (h : Enters r p) (hbits : bitsFit r.phase r.bitcnt.toNat = true) :
    bitsFit p r.bitcnt.toNat = true := by
  cases h <;> simp_all [Machine.bitsFit]

/-- A failure is reported with the phase and the bits of its code (60_exceptions.md R231). -/
theorem Fails.recordFits {tm : Timing} {r : ReadUnit} {c : Code} (h : Fails tm r c)
    (hbits : bitsFit r.phase r.bitcnt.toNat = true) : recordFits c r.phase r.bitcnt.toNat = true := by
  cases h <;> simp_all [Machine.bitsFit, Machine.recordFits]

theorem Fails.code_ne_success {tm : Timing} {r : ReadUnit} {c : Code} (h : Fails tm r c) : c ≠ .success := by
  cases h <;> decide

/-- A sampled bit keeps the invariant (42_frame_decoder.md R150). -/
theorem ReadInv.sample {tm : Timing} {r : ReadUnit} (h : ReadInv tm r) (hp : r.phase = .bSample) (sh : BitVec 40) :
    ReadInv tm (enter .bHigh { r with shift := sh, bitcnt := r.bitcnt + 1 }).1 := by
  have hbits : r.bitcnt.toNat < 40 := by simpa [hp, bitsFit] using h.bits
  have hsucc : (r.bitcnt + 1).toNat = r.bitcnt.toNat + 1 := by bv_omega
  refine h.of_running (by simp [hp]) sh (by decide) ?_ (cntFits_zero tm _)
  rw [hsucc]
  simp only [bitsFit, Bool.and_eq_true, decide_eq_true_eq]
  omega

/-- A failure keeps the invariant (42_frame_decoder.md R141, R154). -/
theorem ReadInv.fail {tm : Timing} {r : ReadUnit} {c : Code} (h : ReadInv tm r) (hp : r.phase ≠ .idle)
    (hfail : Fails tm r c) : ReadInv tm (complete c r).1 :=
  { h with
    bits := decide_eq_true (bitsFit_le h.bits)
    bits40 := fun _ h40 => bitsFit_eq_bHigh hp (by simpa [show r.bitcnt = 40 from h40] using h.bits)
    cnt := rfl
    record := hfail.recordFits h.bits
    rawFull := fun hfull => absurd hfull (h.not_rawFull hp)
    successValid := fun hsuccess => absurd hsuccess hfail.code_ne_success }

/-- The end of a frame keeps the invariant, whether or not its checksum is good (42_frame_decoder.md R152;
43_frame_validator.md R173). -/
theorem ReadInv.finish {tm : Timing} {r : ReadUnit} (h : ReadInv tm r) (hp : r.phase = .bHigh)
    (hb : 40 ≤ r.bitcnt.toNat) : ReadInv tm (finishFrame r).1 := by
  have h40 : r.bitcnt = 40 := by
    have hle := bitsFit_le h.bits
    bv_omega
  rcases finishFrame_cases r with ⟨hok, e⟩ | ⟨-, e⟩ <;> rw [e]
  · exact
      { bits := by simp [h40, bitsFit]
        bits40 := fun _ _ => hp
        cnt := rfl
        record := by simp [h40, hp, recordFits]
        noValid := nofun
        validOk := fun _ => hok
        noRaw := nofun
        rawFull := fun _ => ⟨rfl, h40, rfl, .inl rfl⟩
        successValid := fun _ => rfl }
  · exact
      { h with
        bits := by simp [h40, bitsFit]
        bits40 := fun _ _ => hp
        cnt := rfl
        record := by simp [h40, hp, recordFits]
        noRaw := nofun
        rawFull := fun _ => ⟨rfl, h40, rfl, .inr rfl⟩
        successValid := nofun }

/-- A tick of the frame decoder keeps the read unit's invariant (42_frame_decoder.md R142). -/
theorem frameStep_keeps_readInv {tm : Timing} {r : ReadUnit} (h : ReadInv tm r) (hp : r.phase ≠ .idle) (line : Bool) :
    ReadInv tm (frameStep tm r line).1 := by
  have heffect := frameStep_effect tm r line hp
  generalize frameStep tm r line = result at heffect
  cases heffect with
  | count hwaits => exact h.of_running hp r.shift hp h.bits hwaits.cntFits_succ
  | next p henters => exact h.of_running hp r.shift henters.phase_ne_idle (henters.bitsFit h.bits) (cntFits_zero tm p)
  | sample hsample _ => exact h.sample hsample _
  | fail c hfail => exact h.fail hp hfail
  | finish hhigh hb _ => exact h.finish hhigh hb

/-! ## The dew-point unit keeps its invariant -/

/-- Out of its domain a dew-point function answers TD = 0 and SAT = 0 (44_dewpoint.md R208). -/
theorem fromGamma_domain {g : Int} {range : Bool} (hd : (fromGamma g range).domain = true) :
    (fromGamma g range).td = 0 ∧ (fromGamma g range).sat = false := by
  rcases fromGamma_cases g range with ⟨-, e⟩ | ⟨-, e⟩
  · rw [e]; exact ⟨rfl, rfl⟩
  · rcases saturate_cases (rdiv (b10 * g) (aQ - g)) range with ⟨-, e'⟩ | ⟨-, e'⟩ | ⟨-, -, e'⟩ <;>
      simp [e, e'] at hd

theorem dewPoint_domain {log2 : Nat → Nat} {c t10 : Int} {h10 : Nat} (hd : (dewPoint log2 c t10 h10).domain = true) :
    (dewPoint log2 c t10 h10).td = 0 ∧ (dewPoint log2 c t10 h10).sat = false := by
  rcases dewPoint_cases log2 c t10 h10 with ⟨-, e⟩ | ⟨-, -, e⟩
  · rw [e]; exact ⟨rfl, rfl⟩
  · rw [e] at hd ⊢
    exact fromGamma_domain hd

theorem dpResult_domain {m : DpMode} {op : Word} (hd : (dpResult m op).domain = true) :
    (dpResult m op).td = 0 ∧ (dpResult m op).sat = false := by
  cases m <;> exact dewPoint_domain hd

/-- A new operand keeps the invariant (20_memory.md R65). -/
theorem DpInv.write_dpIn {d : DpUnit} (h : DpInv d) (v : Word) : DpInv { d with dpIn := v } :=
  { h with }

/-- An accepted command keeps the invariant, as its latency is not 0 (40_commands.md R105). -/
theorem DpInv.accept {d : DpUnit} (h : DpInv d) (m : DpMode) {latency : Byte} (hl : latency ≠ 0) :
    DpInv (d.accept m latency) :=
  { h with busy := ⟨fun _ => hl, fun _ => rfl⟩ }

/-- A cycle of the busy dew-point unit keeps its invariant (44_dewpoint.md R214, R215). -/
theorem dpStep_keeps_dpInv {d : DpUnit} (h : DpInv d) (hb : d.busy = true) : DpInv (dpStep d).1 := by
  rcases dpStep_cases d with ⟨hcnt, e⟩ | ⟨-, e⟩ <;> rw [e]
  · have hpos : d.cnt ≠ 0 := h.busy.mp hb
    have hleft : d.cnt - 1 ≠ 0 := by bv_omega
    exact { h with busy := ⟨fun _ => hleft, fun _ => hb⟩ }
  · exact
      { busy := ⟨nofun, fun hcnt => absurd rfl hcnt⟩
        notDone := nofun
        domain := fun hd => by
          obtain ⟨htd, hsat⟩ := dpResult_domain hd
          exact ⟨congrArg toHalf htd, hsat⟩ }

/-! ## The machine keeps its invariant -/

theorem latencyOf_ne_zero {p : Params} (hp : p.wf) (m : DpMode) : latencyOf p m ≠ 0 := by
  obtain ⟨hprecise, hfast⟩ := hp
  cases m
  · exact hprecise
  · exact hfast

/-- No host operation breaks the invariant: timing registers are written in IDLE only (20_memory.md R67). -/
theorem HostEffect.keeps_inv {s s1 : State} (he : HostEffect s s1) (h : Inv s) : Inv s1 := by
  cases he with
  | same | error | intEn | clear => exact { h with }
  | timing k v hb => exact { h with read := h.read.of_idle ((rdBusy_eq_false_iff _).mp hb) }
  | dpIn v _ => exact { h with dp := h.dp.write_dpIn v }
  | read _ => exact { h with read := h.read.accept }
  | dp m _ => exact { h with dp := h.dp.accept m (latencyOf_ne_zero h.params m) }

/-- A busy frame decoder that ticks runs under unchanged timing registers, so its tick keeps the invariant; otherwise
the host's effect stands. -/
theorem readAfter_keeps_readInv {s s1 : State} (he : HostEffect s s1) (h : Inv s) :
    ReadInv s1.timing (readAfter s s1).1 := by
  unfold readAfter
  split
  case isTrue hsteps =>
    have hbusy : rdBusy s.rd = true := (Bool.and_eq_true_iff.1 hsteps).1
    rw [(he.of_rdBusy hbusy).2]
    exact frameStep_keeps_readInv h.read ((rdBusy_eq_true_iff _).mp hbusy) _
  case isFalse => exact (he.keeps_inv h).read

theorem dpAfter_keeps_dpInv {s s1 : State} (he : HostEffect s s1) (h : Inv s) : DpInv (dpAfter s s1).1 := by
  unfold dpAfter
  split
  case isTrue hbusy => exact dpStep_keeps_dpInv h.dp hbusy
  case isFalse => exact (he.keeps_inv h).dp

theorem advance_keeps_inv {s s1 : State} (he : HostEffect s s1) (h : Inv s) (out : BusOut) :
    Inv (advance s s1 out) where
  params := (he.keeps_inv h).params
  read := readAfter_keeps_readInv he h
  dp := dpAfter_keeps_dpInv he h

theorem resetCycle_keeps_inv {s : State} (h : Inv s) : Inv (resetCycle s) :=
  { inv_resetWith h.params with }

/-- Settles O59: a reset cycle leads to the reset values, and every other step is a host operation followed by the
units' advance, each of which keeps the invariant. -/
theorem everyStepKeepsTheInvariant : Obligations.EveryStepKeepsTheInvariant := by
  intro s t h hstep
  obtain ⟨-, rfl⟩ | ⟨-, op, s1, -, -, heffect, rfl⟩ := step_next_cases hstep
  · exact resetCycle_keeps_inv h
  · exact advance_keeps_inv heffect h _

end Sys2Proof.Machine
end

section
/-! PROOFS. The memory family: the cycle without a host effect (20_memory.md R63, R64), the write table with its locks
(R65, R67), INT_PEND (R68), the placed command (R69, R100) and the order of a frame's bits (R70). -/

namespace Sys2Proof.Machine

/-! ## A command's word -/

@[simp] theorem decode_encode (i : Instr) : decode (encode i) = .ok i := by cases i <;> rfl

@[simp] theorem cmdWordOf_toNat (w : Word) : cmdWordOf 32 w.toNat = w := by
  rw [cmdWordOf, Nat.mod_eq_of_lt w.isLt, BitVec.ofNat_toNat, BitVec.setWidth_eq]

theorem command_encode (s : State) (i : Instr) : command s (encode i) = exec i s := by
  rw [command, decode_encode]

theorem withFetchWord_toNat (s : State) (w : Word) : s.withFetchWord 32 w.toNat = placeCommand s w := by
  rw [State.withFetchWord, cmdWordOf_toNat]

theorem running_placeCommand (s : State) (w : Word) : running (placeCommand s w) := ⟨rfl, rfl⟩

/-- Settles O13: the placed line is a write of the command's word to CMD, which the block decodes and runs. -/
theorem placedCommandRunsNext : Obligations.PlacedCommandRunsNext := by
  intro s i t1 hexec
  rw [withFetchWord_toNat] at hexec ⊢
  have hwrite : hostStep (placeCommand s (encode i)) (.wr (offsetOf .cmd) (encode i)) = .next t1 := by
    rw [hostStep_cmd, command_encode, hexec]
  exact step_of_host (running_placeCommand s (encode i)) rfl hwrite

/-! ## Cycles whose host operation has no effect -/

theorem view_withHost (s : State) (c : HostCmd) (off : Offset) : view (withHost s c) off = view s off := by
  unfold view
  cases regAt off with
  | none => rfl
  | some r => cases r <;> rfl

/-- The bus reply does not depend on the rest of the host's program. -/
theorem busReply_withHost (s : State) (c : HostCmd) (op : HostOp) : busReply (withHost s c) op = busReply s op := by
  cases op with
  | rd off => simp only [busReply, view_withHost]
  | _ => rfl

/-- The host's fault record after a cycle from `s` with the host operation `op` (93_implementation_defined.md I7). -/
def busFaultsAfter (s : State) (op : HostOp) : List BusFault :=
  if isBusError (busReply s op) then ⟨s.env.clk, op⟩ :: s.env.busFaults else s.env.busFaults

theorem busFaultsAfter_of_error {s : State} {op : HostOp} (herr : isBusError (busReply s op) = true) :
    busFaultsAfter s op = ⟨s.env.clk, op⟩ :: s.env.busFaults := if_pos herr

theorem busFaultsAfter_of_ok {s : State} {op : HostOp} (hok : isBusError (busReply s op) = false) :
    busFaultsAfter s op = s.env.busFaults := by
  rw [busFaultsAfter, hok, if_neg Bool.false_ne_true]

theorem faultsAfter_busReply {s : State} {op : HostOp} (hop : hostNext s.env.program = some op) :
    faultsAfter s.env (busReply s op) = busFaultsAfter s op := by
  rw [faultsAfter, hop, Option.getD_some, busFaultsAfter]

theorem busFaultsAfter_withHost (s : State) (c : HostCmd) (op : HostOp) :
    busFaultsAfter (withHost s c) op = busFaultsAfter s op := by
  rw [busFaultsAfter, busReply_withHost]
  rfl

/-- The state after a cycle from `s` without a host operation. -/
def idleCycle (s : State) : State := advance (withHost s (.idle 1)) (withHost s (.idle 1)) .none

theorem step_withHost_idle {s : State} (hr : running s) : step (withHost s (.idle 1)) = .next (idleCycle s) :=
  step_of_host (s := withHost s (.idle 1)) hr rfl rfl

/-- A cycle whose one host operation has no effect is one without a host operation, but for the bus reply and the host's
fault record. -/
theorem step_withHost_of_no_effect {s : State} {c : HostCmd} {op : HostOp} (hr : running s)
    (hop : hostNext [c] = some op) (hprogram : ∀ data, hostAfter data [c] = [])
    (hnone : hostStep (withHost s c) op = .next (withHost s c)) :
    step (withHost s c) = .next { idleCycle s with env := { (idleCycle s).env with
      busOut := busReply s op, busFaults := busFaultsAfter s op } } := by
  have henv : nextEnv (withHost s c).env (busReply (withHost s c) op) = { (idleCycle s).env with
      busOut := busReply s op, busFaults := busFaultsAfter s op } := by
    rw [nextEnv, faultsAfter_busReply hop, busFaultsAfter_withHost, busReply_withHost]
    simp only [withHost, hprogram]
    rfl
  rw [step_of_host (s := withHost s c) hr hop hnone, ← henv]
  rfl

theorem step_withHost_rd {s : State} (hr : running s) (off : Offset) :
    step (withHost s (.rd off)) = .next { idleCycle s with env := { (idleCycle s).env with
      busOut := busReply s (.rd off), busFaults := busFaultsAfter s (.rd off) } } :=
  step_withHost_of_no_effect hr rfl (fun _ => rfl) rfl

theorem aligned_eq_false_iff (off : Offset) : aligned off = false ↔ off.toNat % 4 ≠ 0 := by
  rw [← Bool.not_eq_true, aligned_iff]

/-- A misaligned write has no effect (20_memory.md R63). -/
theorem hostStep_wr_misaligned (s : State) {off : Offset} (hoff : aligned off = false) (data : Word) :
    hostStep s (.wr off data) = .next s := by
  rw [hostStep_wr, hoff, if_neg Bool.false_ne_true]

/-- The fault record after a running step. -/
theorem step_busFaults {s t : State} {op : HostOp} (hr : running s) (hop : hostNext s.env.program = some op)
    (hstep : step s = .next t) : t.env.busFaults = busFaultsAfter s op := by
  obtain ⟨s1, -, -, rfl⟩ := step_running hr hop hstep
  rw [advance_env, nextEnv_busFaults, faultsAfter_busReply hop]

/-- Settles O14: a misaligned access has no effect on the block and is answered ERR; the record follows the replies of
the bus, and a reset cycle answers no ERR. -/
theorem misalignedAccessHasNoEffect : Obligations.MisalignedAccessHasNoEffect := by
  refine ⟨fun s off data hr hoff => ?_, fun s t op hr hop hstep => ⟨?_, ?_⟩, fun s t hrst hstep => ?_⟩
  · have hmis : aligned off = false := (aligned_eq_false_iff off).mpr hoff
    have hrd : busReply s (.rd off) = .rd .err 0 := by rw [busReply, hmis]; rfl
    have hwr : busReply s (.wr off data) = .wr .err := by rw [busReply, hmis]; rfl
    refine ⟨idleCycle s, step_withHost_idle hr, ?_, ?_⟩
    · rw [step_withHost_rd hr, busFaultsAfter_of_error (by rw [hrd]; rfl), hrd]
      rfl
    · rw [step_withHost_of_no_effect hr rfl (fun _ => rfl) (hostStep_wr_misaligned _ hmis data),
        busFaultsAfter_of_error (by rw [hwr]; rfl), hwr]
  · rintro off data hacc hoff
    have hmis : aligned off = false := (aligned_eq_false_iff off).mpr hoff
    rw [step_busFaults hr hop hstep]
    refine busFaultsAfter_of_error ?_
    rcases hacc with rfl | rfl <;> simp [isBusError_busReply, hmis]
  · intro hacc
    rw [step_busFaults hr hop hstep]
    refine busFaultsAfter_of_ok ?_
    rw [isBusError_busReply]
    cases op with
    | idle => rfl
    | rd off => simp [(aligned_iff off).mpr (hacc off 0 (.inl rfl))]
    | wr off data => simp [(aligned_iff off).mpr (hacc off data (.inr rfl))]
  · rw [step_of_reset hrst] at hstep
    cases hstep
    show faultsAfter _ _ = _
    rw [faultsAfter, isBusError_busReplyInReset, if_neg Bool.false_ne_true]

/-! ## Reads -/

/-- From 0x5C on the window is reserved (10_state.md R47). -/
theorem regAt_eq_none_of_ge {off : Offset} (hoff : 0x5C ≤ off.toNat) : regAt off = none := by
  cases hreg : regAt off with
  | none => rfl
  | some r =>
    rw [← offsetOf_of_regAt hreg] at hoff
    cases r with
    | timing k => cases k <;> exact absurd hoff (by decide)
    | _ => exact absurd hoff (by decide)

/-- Settles O15: a read has no effect and is answered with the view; the views are evaluated. -/
theorem readsReturnTheViewAndChangeNothing : Obligations.ReadsReturnTheViewAndChangeNothing := by
  refine ⟨fun s off hr hoff => ⟨⟨idleCycle s, step_withHost_idle hr, ?_⟩, fun hres => ?_⟩, fun s => ?_⟩
  · have hrd : busReply s (.rd off) = .rd .ok (view s off) := by rw [busReply, (aligned_iff off).mpr hoff, if_pos rfl]
    rw [step_withHost_rd hr, busFaultsAfter_of_ok (by rw [hrd]; rfl), hrd]
    rfl
  · simp [view, regAt_eq_none_of_ge hres]
  · exact ⟨idWord_eq s.params.variant, rfl, rfl, rfl, rfl, rfl, rfl, rfl, rfl, rfl, rfl, rfl, rfl, rfl, rfl, rfl, rfl,
      rfl, rfl⟩

/-! ## Writes -/

/-- The offsets at which a write can have an effect: CMD and the writable registers (20_memory.md R65). -/
def writableOffsets : List Offset :=
  [0x04#8, 0x0C#8, 0x10#8, 0x14#8, 0x18#8, 0x1C#8, 0x20#8, 0x24#8, 0x28#8, 0x2C#8, 0x30#8, 0x34#8, 0x4C#8]

theorem writeReg_of_not_writable (s : State) (data : Word) {r : Reg} (hr : offsetOf r ∉ writableOffsets) :
    writeReg s data r = s := by
  cases r with
  | timing k => cases k <;> exact absurd hr (by decide)
  | intEn | intPend | dpIn => exact absurd hr (by decide)
  | _ => rfl

/-- A write to a read-only register or a reserved offset has no effect (20_memory.md R65). -/
theorem hostStep_wr_ignored (s : State) (data : Word) {off : Offset} (hoff : off ∉ writableOffsets) :
    hostStep s (.wr off data) = .next s := by
  cases hreg : regAt off with
  | none => rw [hostStep_wr, hreg]; exact ite_self _
  | some r =>
    obtain rfl := offsetOf_of_regAt hreg
    have hcmd : r ≠ .cmd := by rintro rfl; exact absurd hoff (by decide)
    rw [hostStep_reg s data hcmd, writeReg_of_not_writable s data hoff]

theorem writeDpIn_of_idle {s : State} (hidle : s.dp.busy = false) (data : Word) :
    writeDpIn data s = { s with dp := { s.dp with dpIn := data } } := by
  rw [writeDpIn, hidle, if_neg Bool.false_ne_true]

theorem writeDpIn_of_busy {s : State} (hbusy : s.dp.busy = true) (data : Word) :
    writeDpIn data s = hostError .locked s := by
  rw [writeDpIn, hbusy, if_pos rfl]

theorem writeTiming_of_idle {s : State} (hidle : s.rd.phase = .idle) (k : TimingReg) (data : Word) :
    writeTiming k data s = { s with timing := s.timing.set (lowHalf data) k } := by
  rw [writeTiming, (rdBusy_eq_false_iff _).mpr hidle, if_neg Bool.false_ne_true]

theorem writeTiming_of_busy {s : State} (hbusy : s.rd.phase ≠ .idle) (k : TimingReg) (data : Word) :
    writeTiming k data s = hostError .locked s := by
  rw [writeTiming, (rdBusy_eq_true_iff _).mpr hbusy, if_pos rfl]

theorem hostStep_dpIn (s : State) (data : Word) : hostStep s (.wr 0x4C#8 data) = .next (writeDpIn data s) :=
  hostStep_reg s data (r := .dpIn) nofun

/-- A write to a timing register stores the low half of its data or is refused (20_memory.md R65, R67). -/
theorem hostStep_timing (s : State) (k : TimingReg) (data : Word) :
    hostStep s (.wr (offsetOf (.timing k)) data) = .next (writeTiming k data s) :=
  hostStep_reg s data (r := .timing k) nofun

/-- An accepted write to a timing register (20_memory.md R65). -/
theorem hostStep_timing_of_idle {s : State} (hidle : s.rd.phase = .idle) (k : TimingReg) (data : Word) :
    hostStep s (.wr (offsetOf (.timing k)) data) = .next { s with timing := s.timing.set (lowHalf data) k } := by
  rw [hostStep_timing, writeTiming_of_idle hidle]

/-- Settles O16: each row of the table is a register's write; INT_EN is written by no other operation and by no unit. -/
theorem writeTable : Obligations.WriteTable := by
  refine ⟨fun s data => ⟨hostStep_cmd s data, hostStep_reg s data (r := .intEn) nofun,
    hostStep_reg s data (r := .intPend) nofun, fun hidle => ?_, fun off _ hoff => hostStep_wr_ignored s data hoff,
    fun off hoff => ?_⟩, fun s t op hr hop hstep => ?_⟩
  · rw [hostStep_dpIn, writeDpIn_of_idle hidle]
  · rw [busReply, (aligned_iff off).mpr hoff, if_pos rfl]
  · obtain ⟨s1, h1, -, rfl⟩ := step_running hr hop hstep
    rw [advance_hif, HostIf.raise_intEn]
    refine ⟨?_, (hostStep_frame h1).1⟩
    rintro data rfl
    cases (hostStep_reg s data (r := .intEn) nofun).symm.trans h1
    rfl

/-! ## Timing registers -/

/-- The offsets of the timing registers (10_state.md R29-R37). -/
theorem mem_timingOffsets_iff (off : Offset) :
    off ∈ [0x14#8, 0x18#8, 0x1C#8, 0x20#8, 0x24#8, 0x28#8, 0x2C#8, 0x30#8, 0x34#8] ↔
      ∃ k, off = offsetOf (.timing k) := by
  constructor
  · intro hoff
    simp only [List.mem_cons, List.not_mem_nil, or_false] at hoff
    rcases hoff with h | h | h | h | h | h | h | h | h
    exacts [⟨.tickDiv, h⟩, ⟨.tStab, h⟩, ⟨.tStart, h⟩, ⟨.toPres, h⟩, ⟨.toSyncL, h⟩, ⟨.toSyncH, h⟩, ⟨.toBitL, h⟩,
      ⟨.tSample, h⟩, ⟨.toBitH, h⟩]
  · rintro ⟨k, rfl⟩
    cases k <;> decide

/-- The view of every register after a timing register is set. -/
theorem viewReg_setTiming (s : State) (v : Half) (k : TimingReg) (r : Reg) :
    viewReg { s with timing := s.timing.set v k } r = if r = .timing k then wordOfHalf v else viewReg s r := by
  cases r with
  | timing k' =>
    simp only [viewReg, Timing.get_set, Reg.timing.injEq]
    exact apply_ite wordOfHalf _ _ _
  | _ => rfl

theorem view_offsetOf (s : State) (r : Reg) : view s (offsetOf r) = viewReg s r := by
  rw [view, regAt_offsetOf]

/-- The other registers of the window read as before after a timing register is set. -/
theorem view_setTiming_of_ne (s : State) (v : Half) {k : TimingReg} {off : Offset} (hoff : off ≠ offsetOf (.timing k)) :
    view { s with timing := s.timing.set v k } off = view s off := by
  unfold view
  cases hreg : regAt off with
  | none => rfl
  | some r =>
    have hr : r ≠ .timing k := by rintro rfl; exact hoff (offsetOf_of_regAt hreg).symm
    exact (viewReg_setTiming s v k r).trans (if_neg hr)

/-- Settles O17: an accepted write is `Timing.set`, which changes one register, and the units write none of them. -/
theorem timingWriteStoresTheLowHalf : Obligations.TimingWriteStoresTheLowHalf := by
  refine ⟨fun s data hidle => ?_, fun s off data hidle hoff => ?_, fun s t op hr hop hstep hother => ?_⟩
  · have hwrite := fun k => hostStep_timing_of_idle hidle k data
    exact ⟨hwrite .tickDiv, hwrite .tStab, hwrite .tStart, hwrite .toPres, hwrite .toSyncL, hwrite .toSyncH,
      hwrite .toBitL, hwrite .tSample, hwrite .toBitH⟩
  · obtain ⟨k, rfl⟩ := (mem_timingOffsets_iff off).mp hoff
    have hwrite := hostStep_timing_of_idle hidle k data
    refine ⟨_, hwrite, ?_, fun off' hne => view_setTiming_of_ne s _ hne, rfl, rfl, rfl, rfl,
      fun hr hop => ⟨_, step_of_host hr hop hwrite, rfl⟩⟩
    rw [view_offsetOf, viewReg_setTiming, if_pos rfl]
    rfl
  · obtain ⟨s1, h1, -, rfl⟩ := step_running hr hop hstep
    exact (hostStep_frame h1).2 fun k d => hother _ d ((mem_timingOffsets_iff _).mpr ⟨k, rfl⟩)

/-! ## Locks -/

theorem dpStep_dpIn (d : DpUnit) : (dpStep d).1.dpIn = d.dpIn := by
  rcases dpStep_cases d with ⟨-, e⟩ | ⟨-, e⟩ <;> rw [e]

/-- A cycle does not change DP_IN of a busy dew-point unit (20_memory.md R67). -/
theorem dpAfter_dpIn_of_busy {s : State} (hbusy : s.dp.busy = true) (s1 : State) :
    (dpAfter s s1).1.dpIn = s.dp.dpIn := by
  rw [dpAfter, hbusy, if_pos rfl, dpStep_dpIn]

/-- Settles O18: a locked write is a host error, and no effect of the host and no unit writes a busy unit's registers. -/
theorem lockedWritesAreRefused : Obligations.LockedWritesAreRefused := by
  refine fun s => ⟨fun hbusy off data hoff => ?_, fun hbusy data => ?_, fun t hr hstep => ?_⟩
  · obtain ⟨k, rfl⟩ := (mem_timingOffsets_iff off).mp hoff
    rw [hostStep_timing, writeTiming_of_busy hbusy]
    rfl
  · rw [hostStep_dpIn, writeDpIn_of_busy hbusy]
    rfl
  · obtain ⟨hrst, -⟩ | ⟨-, op, s1, -, -, heffect, rfl⟩ := step_next_cases hstep
    · exact absurd (hr.1.symm.trans hrst) Bool.false_ne_true
    · exact ⟨fun hbusy => (heffect.of_rdBusy ((rdBusy_eq_true_iff _).mpr hbusy)).2,
        fun hbusy => dpAfter_dpIn_of_busy hbusy s1⟩

/-! ## INT_PEND -/

/-- Each bit of INT_PEND has one source: bit 0 a transaction, bit 1 a computation, bit 2 a host error
(60_exceptions.md R241). -/
theorem raised_getLsbD (p : BitVec 3) (hostErr rdDone dpDone : Bool) :
    let raised := (p ||| if hostErr then hostErrBit else 0#3) ||| doneSet rdDone dpDone
    raised.getLsbD 0 = (p.getLsbD 0 || rdDone) ∧ raised.getLsbD 1 = (p.getLsbD 1 || dpDone) ∧
      raised.getLsbD 2 = (p.getLsbD 2 || hostErr) := by
  revert p hostErr rdDone dpDone
  decide

/-- Settles O19: what the host operation leaves of INT_PEND, with the completions of the units raised over it. -/
theorem pendingSetWinsOverClear : Obligations.PendingSetWinsOverClear := by
  intro s t op hr hop hstep k hk
  obtain ⟨s1, h1, heffect, rfl⟩ := step_running hr hop hstep
  obtain ⟨-, hpend⟩ := hostStep_interrupts h1
  obtain ⟨hrd, hdp, herr⟩ := raised_getLsbD (s.hif.intPend &&& ~~~w1cMask op) (hostErrorOf s op).isSome
    (readAfter s s1).2 (dpAfter s s1).2
  have hclear : (s.hif.intPend.getLsbD k && !(w1cMask op).getLsbD k) =
      (s.hif.intPend &&& ~~~w1cMask op).getLsbD k := by simp [hk]
  rw [hclear, advance_hif, HostIf.raise_intPend, hpend]
  interval_cases k
  · rw [hrd, readAfter_done heffect]; rfl
  · rw [hdp, dpAfter_done]; rfl
  · exact herr

/-! ## The order of a frame's bits -/

/-- After samples are shifted in, bit i of SHIFT is the i-th sample from the last (42_frame_decoder.md R150). -/
theorem foldl_shiftIn_getLsbD (sh : BitVec 40) (bits : List Bool) {i : Nat} (hi : i < bits.length) (h40 : i < 40) :
    (bits.foldl shiftIn sh).getLsbD i = bits.getD (bits.length - 1 - i) false := by
  induction bits using List.reverseRecOn generalizing i with
  | nil => exact absurd hi (Nat.not_lt_zero i)
  | append_singleton bits b ih =>
    rw [List.foldl_append, List.foldl_cons, List.foldl_nil, shiftIn_getLsbD]
    rw [List.length_append, List.length_singleton] at hi ⊢
    cases i with
    | zero => simp
    | succ j =>
      have hprev := ih (show j < bits.length by omega) (by omega)
      have hindex : bits.length + 1 - 1 - (j + 1) = bits.length - 1 - j := by omega
      rw [if_neg (Nat.succ_ne_zero j), decide_eq_true h40, Bool.true_and, Nat.add_sub_cancel, hprev, hindex,
        List.getD_append _ _ _ _ (by omega)]

/-- Pack: byte i holds SHIFT[39-8i : 32-8i] (42_frame_decoder.md R153). -/
theorem pack_byte_getLsbD (sh : BitVec 40) (i : Fin 5) {j : Nat} (hj : j < 8) :
    ((pack sh).byte i).getLsbD j = sh.getLsbD (32 - 8 * i.val + j) := by
  fin_cases i <;> simp [pack, Frame.byte, hj]

/-- Settles O30: bit 7 - k mod 8 of byte k / 8 is SHIFT[39-k], the k-th of the forty samples. -/
theorem packIsInCaptureOrder : Obligations.PackIsInCaptureOrder := by
  intro sh bits hlen k
  have hk := k.isLt
  have hbit : 32 - 8 * (k.val / 8) + (7 - k.val % 8) = 39 - k.val := by omega
  rw [pack_byte_getLsbD _ _ (by omega), hbit, foldl_shiftIn_getLsbD sh bits (by omega) (by omega)]
  congr 1
  omega

end Sys2Proof.Machine
end

section
/-! PROOFS. The encoding family: the decoder and the words of the commands (30_encoding.md R80-R83), illegal words
(R82), and the host-program lines POLL and DEWPOINT (R87). -/

namespace Sys2Proof.Machine

/-! ## The words of the commands -/

theorem eq_encode_of_fields {w : Word} {i : Instr} (hrsv : rsvField w = 0) (hop : opField w = opcode i) :
    w = encode i := by
  rw [word_eq_fields w, hrsv, hop, encode]

theorem decode_eq_ok_iff (w : Word) (i : Instr) : decode w = .ok i ↔ w = encode i := by
  constructor
  · intro h
    obtain ⟨-, herr⟩ | ⟨-, -, herr⟩ | ⟨j, hrsv, hop, hok⟩ := decode_cases w
    · cases herr.symm.trans h
    · cases herr.symm.trans h
    · cases hok.symm.trans h
      exact eq_encode_of_fields hrsv hop
  · rintro rfl
    exact decode_encode i

/-- Bit k of the table's numbering is bit k of CMD (20_memory.md R69). -/
theorem decodeTableWord_toNat (w : Word) : decodeTableWord 32 w.toNat = (decode w).toOption := by
  rw [decodeTableWord, if_pos ⟨le_rfl, w.isLt⟩, BitVec.ofNat_toNat, BitVec.setWidth_eq]

/-- Settles O2: the answers of `decode` fix the word's two fields, and a word is its two fields. -/
theorem decodeIsTheInverseOfEncode : Obligations.DecodeIsTheInverseOfEncode := by
  refine fun i w => ⟨decode_eq_ok_iff w i, fun hw => ?_⟩
  rw [decodeTableWord_toNat, (decode_eq_ok_iff w i).mpr hw, Except.toOption]

/-! ## Illegal words -/

theorem decode_of_rsvField_ne_zero {w : Word} (hrsv : rsvField w ≠ 0) : decode w = .error .reservedBits := if_pos hrsv

theorem opcode_toNat_lt (i : Instr) : (opcode i).toNat < 4 := by cases i <;> decide

theorem decode_of_reservedOpcode {w : Word} (hrsv : rsvField w = 0) (hop : 4 ≤ (opField w).toNat) :
    decode w = .error .reservedOpcode := by
  obtain ⟨hne, -⟩ | ⟨-, -, herr⟩ | ⟨i, -, hopcode, -⟩ := decode_cases w
  · exact absurd hrsv hne
  · exact herr
  · exact absurd (hopcode ▸ hop) (Nat.not_le.mpr (opcode_toNat_lt i))

/-- The decoder rejects exactly the illegal words (30_encoding.md R82). -/
theorem decode_error_iff (w : Word) :
    (∃ e, decode w = .error e) ↔ rsvField w ≠ 0 ∨ 4 ≤ (opField w).toNat := by
  constructor
  · rintro ⟨e, he⟩
    obtain ⟨hrsv, -⟩ | ⟨-, hop, -⟩ | ⟨i, -, -, hok⟩ := decode_cases w
    · exact .inl hrsv
    · exact .inr hop
    · cases hok.symm.trans he
  · intro hillegal
    by_cases hrsv : rsvField w = 0
    · exact ⟨_, decode_of_reservedOpcode hrsv (hillegal.resolve_left (not_not.mpr hrsv))⟩
    · exact ⟨_, decode_of_rsvField_ne_zero hrsv⟩

/-- The decoder rejects exactly the words of no command. -/
theorem decode_error_iff_forall_ne_encode (w : Word) : (∃ e, decode w = .error e) ↔ ∀ i, w ≠ encode i := by
  simp only [ne_eq, ← decode_eq_ok_iff]
  cases decode w with
  | error e => simp
  | ok i => simp

/-- A rejected word written to CMD is a host error (40_commands.md R100). -/
theorem command_of_decode_error (s : State) {w : Word} (h : ∃ e, decode w = .error e) :
    command s w = .next (hostError .illegal s) := by
  obtain ⟨e, he⟩ := h
  rw [command, he]

/-- Settles O1: an illegal word is rejected, and with RSV = 0 an opcode makes the word its command's. -/
theorem decodeFollowsRsvAndOp : Obligations.DecodeFollowsRsvAndOp := by
  refine fun w => ⟨fun hrsv => (decode_error_iff w).mpr (.inl hrsv), fun hrsv => ?_⟩
  have hok : ∀ i, opField w = opcode i → decode w = .ok i := fun i hop =>
    (decode_eq_ok_iff w i).mpr (eq_encode_of_fields hrsv hop)
  exact ⟨hok .nop, hok .read, hok .dpPrecise, hok .dpFast, fun hop => (decode_error_iff w).mpr (.inr hop)⟩

/-- Settles O4: illegal words and the words of no command are both the rejected ones; `hostError` is the effect. -/
theorem illegalWordsRaiseIllegal : Obligations.IllegalWordsRaiseIllegal := by
  intro w
  exact ⟨(decode_error_iff w).symm.trans (decode_error_iff_forall_ne_encode w),
    fun hillegal s => (hostStep_cmd s w).trans (command_of_decode_error s ((decode_error_iff w).mpr hillegal))⟩

/-- Settles O3: the illegal words lie at the bounds of RSV and OP. -/
theorem specWordsDecode : Obligations.SpecWordsDecode :=
  ⟨decode_nop, decode_read, decode_dpPrecise, decode_dpFast,
    decode_of_reservedOpcode rfl (by decide), decode_of_reservedOpcode rfl (by decide),
    decode_of_rsvField_ne_zero (by decide), decode_of_rsvField_ne_zero (by decide),
    decode_of_rsvField_ne_zero (by decide), decode_of_rsvField_ne_zero (by decide)⟩

/-! ## POLL -/

theorem busReply_rd_of_aligned (s : State) {off : Offset} (hoff : off.toNat % 4 = 0) :
    busReply s (.rd off) = .rd .ok (view s off) := by
  rw [busReply, (aligned_iff off).mpr hoff, if_pos rfl]

/-- The host program after a running step. -/
theorem step_program {s t : State} {op : HostOp} (hr : running s) (hop : hostNext s.env.program = some op)
    (hstep : step s = .next t) : t.env.program = hostAfter (replyData (busReply s op)) s.env.program := by
  obtain ⟨s1, -, -, rfl⟩ := step_running hr hop hstep
  rw [advance_env, nextEnv_program]

theorem hostAfter_poll (data mask val : Word) (off : Offset) (rest : List HostCmd) :
    hostAfter data (.poll off mask val :: rest) =
      if data &&& mask = val then rest else .poll off mask val :: rest := rfl

/-- Settles O23: the read of the cycle answers with the view, and `hostAfter` compares it. -/
theorem pollRepeatsUntilItsConditionHolds : Obligations.PollRepeatsUntilItsConditionHolds := by
  intro s t off mask val rest hr hoff hprog hstep
  have hop : hostNext s.env.program = some (.rd off) := by rw [hprog, hostNext]
  have hafter : t.env.program = if view s off &&& mask = val then rest else .poll off mask val :: rest := by
    rw [step_program hr hop hstep, busReply_rd_of_aligned s hoff, replyData, hprog, hostAfter_poll]
  rw [hafter, hprog]
  exact ⟨fun hval => if_pos hval, fun hval => if_neg hval⟩

/-! ## DEWPOINT -/

/-- T10 is the low half of the operands' word, read as a signed number (30_encoding.md R84). -/
theorem opT10_dpOperands {t10 : Int} (hlo : -32768 ≤ t10) (hhi : t10 ≤ 32767) (h10 : Nat) :
    opT10 (dpOperands t10 h10) = t10 := by
  rw [opT10, dpOperands, extractLsb'_lo, s16, toHalf]
  exact BitVec.toInt_ofInt_eq_self (by decide) hlo (by omega)

/-- H10 is the high half of the operands' word (30_encoding.md R84). -/
theorem opH10_dpOperands (t10 : Int) {h10 : Nat} (hhi : h10 ≤ 65535) : opH10 (dpOperands t10 h10) = h10 := by
  rw [opH10, dpOperands, extractLsb'_hi, u16, BitVec.toNat_ofNat]
  exact Nat.mod_eq_of_lt (by omega)

theorem startDp_of_idle {s : State} (hidle : s.dp.busy = false) (m : DpMode) :
    startDp m s = { s with dp := s.dp.accept m (latencyOf s.params m) } := by
  rw [startDp, hidle, if_neg Bool.false_ne_true]

theorem dpAfter_of_idle {s : State} (hidle : s.dp.busy = false) (s1 : State) : dpAfter s s1 = (s1.dp, false) := by
  rw [dpAfter, hidle, if_neg Bool.false_ne_true]

/-- A running step whose host line is a write: with an idle dew-point unit, the unit is as the write leaves it. -/
theorem step_wr_of_dpIdle {s s1 : State} {off : Offset} {data : Word} {rest : List HostCmd} (hr : running s)
    (hidle : s.dp.busy = false) (hprog : s.env.program = .wr off data :: rest)
    (h1 : hostStep s (.wr off data) = .next s1) :
    ∃ t, step s = .next t ∧ t.dp = s1.dp ∧ t.params = s1.params ∧ t.env.program = rest := by
  have hop : hostNext s.env.program = some (.wr off data) := by rw [hprog, hostNext]
  have hstep := step_of_host hr hop h1
  refine ⟨_, hstep, ?_, advance_params .., ?_⟩
  · rw [advance_dp, dpAfter_of_idle hidle]
  · rw [step_program hr hop hstep, hprog, hostAfter]

/-- Where no reset is to come, a step leads to a running state. -/
theorem running_of_step {s t : State} (hno : noReset s) (hstep : step s = .next t) : running t :=
  ⟨rstNow_of_noReset (noReset_step hno hstep), wasReset_step hstep⟩

/-- Settles O24: the first write stores the operands in DP_IN, and the second moves them to DP_OP. -/
theorem dewpointProgramStartsOnItsOperands : Obligations.DewpointProgramStartsOnItsOperands := by
  intro s t10 h10 rest hr hno hidle hlo hhi hh hprog
  obtain ⟨t1, hstep1, hdp1, hparams1, hprog1⟩ := step_wr_of_dpIdle hr hidle hprog
    ((hostStep_dpIn s _).trans (congrArg _ (writeDpIn_of_idle hidle _)))
  have hidle1 : t1.dp.busy = false := by rw [hdp1, hidle]
  have hcmd : hostStep t1 (.wr (offsetOf .cmd) (encode .dpPrecise)) = .next (startDp .precise t1) := by
    rw [hostStep_cmd, command_encode]
    rfl
  rw [startDp_of_idle hidle1] at hcmd
  obtain ⟨t2, hstep2, hdp2, -, hprog2⟩ := step_wr_of_dpIdle (running_of_step hno hstep1) hidle1 hprog1 hcmd
  have hop : t2.dp.op = dpOperands t10 h10 := by rw [hdp2, DpUnit.accept_op, hdp1]
  refine ⟨t2, ?_, ?_, ?_, ?_, ?_, ?_, hprog2⟩
  · exact (run_succ_of_step hstep1).trans (run_succ_of_step hstep2)
  · rw [hdp2, DpUnit.accept_busy]
  · rw [hdp2, DpUnit.accept_modeL]
  · rw [hdp2, DpUnit.accept_cnt, latencyOf, hparams1]
  · rw [hop, opT10_dpOperands hlo hhi]
  · rw [hop, opH10_dpOperands t10 hh]

end Sys2Proof.Machine
end

section
/-! PROOFS. The commands family: what the four commands do and leave alone (40_commands.md R102-R107), the cycle that
runs a command (R100), and the independence of the two units from each other and from the host (R101, R108). -/

namespace Sys2Proof.Machine

/-! ## The four commands, accepted and refused -/

theorem exec_read (s : State) : exec .read s = .next (startRead s) := rfl

/-- Either dew-point command is `startDp` in its mode (40_commands.md R106, R107). -/
theorem exec_dp {i : Instr} (hi : i = .dpPrecise ∨ i = .dpFast) (s : State) :
    ∃ m, exec i s = .next (startDp m s) := by
  obtain rfl | rfl := hi
  · exact ⟨.precise, rfl⟩
  · exact ⟨.fast, rfl⟩

theorem startRead_of_idle {s : State} (hidle : s.rd.phase = .idle) : startRead s = { s with rd := s.rd.accept } := by
  rw [startRead, (rdBusy_eq_false_iff _).mpr hidle, if_neg Bool.false_ne_true]

theorem startRead_of_busy {s : State} (hbusy : s.rd.phase ≠ .idle) : startRead s = hostError .busy s := by
  rw [startRead, (rdBusy_eq_true_iff _).mpr hbusy, if_pos rfl]

theorem startDp_of_busy {s : State} (hbusy : s.dp.busy = true) (m : DpMode) : startDp m s = hostError .busy s := by
  rw [startDp, hbusy, if_pos rfl]

/-- Settles O5: the word decodes to NOP, whose meaning is the state it is given. -/
theorem nopCompletesWithoutEffect : Obligations.NopCompletesWithoutEffect :=
  ⟨decode_nop, fun s => ⟨rfl, (hostStep_cmd s _).trans (command_encode s .nop)⟩⟩

/-- Settles O6: an accepted READ is `ReadUnit.accept`. -/
theorem readStartsATransaction : Obligations.ReadStartsATransaction := by
  intro s hidle
  rw [exec_read, startRead_of_idle hidle]
  rfl

/-- Settles O7: a refused READ is `hostError`. -/
theorem readWhileBusyIsRefused : Obligations.ReadWhileBusyIsRefused := by
  intro s hbusy
  rw [exec_read, startRead_of_busy hbusy]
  rfl

/-- Settles O8: an accepted DP_PRECISE is `DpUnit.accept` with the latency of its mode. -/
theorem dpPreciseStartsAComputation : Obligations.DpPreciseStartsAComputation :=
  fun _ hidle => congrArg Host.Outcome.next (startDp_of_idle hidle .precise)

/-- Settles O9: an accepted DP_FAST is `DpUnit.accept` with the latency of its mode. -/
theorem dpFastStartsAComputation : Obligations.DpFastStartsAComputation :=
  fun _ hidle => congrArg Host.Outcome.next (startDp_of_idle hidle .fast)

/-- Settles O10: a refused dew-point command is `hostError`, in both modes. -/
theorem dpCommandsWhileBusyAreRefused : Obligations.DpCommandsWhileBusyAreRefused := by
  intro s hbusy i hi
  obtain ⟨m, hexec⟩ := exec_dp hi s
  rw [hexec, startDp_of_busy hbusy]
  rfl

/-! ## The frame of the commands -/

/-- Where only registers at some of the named offsets changed, the window reads as before at every other offset. -/
theorem view_eq_of_viewReg_eq {s t : State} {changed named : List Offset} (hsub : changed ⊆ named)
    (hreg : ∀ r, offsetOf r ∉ changed → viewReg t r = viewReg s r) {off : Offset} (hoff : off ∉ named) :
    view t off = view s off := by
  cases hat : regAt off with
  | none => rw [view, view, hat]
  | some r =>
    obtain rfl := offsetOf_of_regAt hat
    rw [view_offsetOf, view_offsetOf, hreg r fun hmem => hoff (hsub hmem)]

/-- A host error shows in STATUS and INT_PEND alone (60_exceptions.md R236). -/
theorem viewReg_hostError (c : Cause) (s : State) {r : Reg} (hr : offsetOf r ∉ [0x08#8, 0x10#8]) :
    viewReg (hostError c s) r = viewReg s r := by
  cases r with
  | status | intPend => exact absurd hr (by decide)
  | _ => rfl

/-- An accepted READ shows in STATUS, RAW_W0, RAW_W1 and DBG alone (40_commands.md R103). -/
theorem viewReg_acceptRead (s : State) {r : Reg} (hr : offsetOf r ∉ [0x08#8, 0x38#8, 0x3C#8, 0x58#8]) :
    viewReg { s with rd := s.rd.accept } r = viewReg s r := by
  cases r with
  | status | rawW0 | rawW1 | dbg => exact absurd hr (by decide)
  | _ => rfl

/-- An accepted dew-point command shows in the BUSY bits of STATUS and DP_OUT alone (40_commands.md R105). -/
theorem viewReg_acceptDp (s : State) (m : DpMode) (latency : Byte) {r : Reg} (hr : offsetOf r ∉ [0x08#8, 0x50#8]) :
    viewReg { s with dp := s.dp.accept m latency } r = viewReg s r := by
  cases r with
  | status | dpOut => exact absurd hr (by decide)
  | _ => rfl

/-- READ, accepted or refused, leaves the registers it does not name. -/
theorem view_startRead (s : State) {off : Offset} (hoff : off ∉ [0x08#8, 0x10#8, 0x38#8, 0x3C#8, 0x58#8]) :
    view (startRead s) off = view s off := by
  by_cases hidle : s.rd.phase = .idle
  · rw [startRead_of_idle hidle]
    exact view_eq_of_viewReg_eq (by decide) (fun _ => viewReg_acceptRead s) hoff
  · rw [startRead_of_busy hidle]
    exact view_eq_of_viewReg_eq (by decide) (fun _ => viewReg_hostError _ s) hoff

/-- A dew-point command, accepted or refused, leaves the registers it does not name. -/
theorem view_startDp (m : DpMode) (s : State) {off : Offset} (hoff : off ∉ [0x08#8, 0x10#8, 0x50#8]) :
    view (startDp m s) off = view s off := by
  cases hbusy : s.dp.busy with
  | false =>
    rw [startDp_of_idle hbusy]
    exact view_eq_of_viewReg_eq (by decide) (fun _ => viewReg_acceptDp s _ _) hoff
  | true =>
    rw [startDp_of_busy hbusy]
    exact view_eq_of_viewReg_eq (by decide) (fun _ => viewReg_hostError _ s) hoff

/-- No host operation touches the pulse timer, LINE_Q or the inputs. -/
theorem HostEffect.inputs_eq {s s1 : State} (h : HostEffect s s1) :
    s1.timer = s.timer ∧ s1.lineQ = s.lineQ ∧ s1.env = s.env := by
  cases h <;> exact ⟨rfl, rfl, rfl⟩

/-- What no command changes. -/
theorem exec_frame {i : Instr} {s t : State} (h : exec i s = .next t) :
    t.params = s.params ∧ t.timing = s.timing ∧ t.timer = s.timer ∧ t.lineQ = s.lineQ ∧ t.env = s.env ∧
      t.hif.intEn = s.hif.intEn := by
  obtain ⟨t', hexec, heffect⟩ := exec_effect i s
  cases hexec.symm.trans h
  obtain ⟨htimer, hlineQ, henv⟩ := heffect.inputs_eq
  obtain ⟨hintEn, htiming⟩ := command_frame ((command_encode s i).trans h)
  exact ⟨heffect.params_eq, htiming, htimer, hlineQ, henv, hintEn⟩

/-- READ leaves the dew-point unit, the last valid frame and the completion record (40_commands.md R103, R104). -/
theorem startRead_frame (s : State) :
    (startRead s).dp = s.dp ∧ (startRead s).rd.valid = s.rd.valid ∧ (startRead s).rd.haveValid = s.rd.haveValid ∧
      (startRead s).rd.lastCode = s.rd.lastCode ∧ (startRead s).rd.lastPhase = s.rd.lastPhase ∧
      (startRead s).rd.lastBits = s.rd.lastBits := by
  by_cases hidle : s.rd.phase = .idle
  · rw [startRead_of_idle hidle]
    exact ⟨rfl, rfl, rfl, rfl, rfl, rfl⟩
  · rw [startRead_of_busy hidle]
    exact ⟨rfl, rfl, rfl, rfl, rfl, rfl⟩

/-- A dew-point command leaves the read unit, DP_IN and the last result (40_commands.md R105). -/
theorem startDp_frame (m : DpMode) (s : State) :
    (startDp m s).rd = s.rd ∧ (startDp m s).dp.dpIn = s.dp.dpIn ∧ (startDp m s).dp.td10 = s.dp.td10 ∧
      (startDp m s).dp.domain = s.dp.domain ∧ (startDp m s).dp.range = s.dp.range ∧
      (startDp m s).dp.sat = s.dp.sat ∧ (startDp m s).dp.mode = s.dp.mode ∧ (startDp m s).dp.done = s.dp.done := by
  cases hbusy : s.dp.busy with
  | false =>
    rw [startDp_of_idle hbusy]
    exact ⟨rfl, rfl, rfl, rfl, rfl, rfl, rfl, rfl⟩
  | true =>
    rw [startDp_of_busy hbusy]
    exact ⟨rfl, rfl, rfl, rfl, rfl, rfl, rfl, rfl⟩

/-- Settles O11: the frame all commands share, and the frame of each start, accepted or refused. -/
theorem commandsLeaveTheRestUnchanged : Obligations.CommandsLeaveTheRestUnchanged := by
  intro i s t hexec
  refine ⟨exec_frame hexec, ?nop, ?read, ?dp⟩
  case nop =>
    rintro rfl off
    cases hexec
    rfl
  case read =>
    rintro rfl
    cases hexec
    obtain ⟨hdp, hvalid, hhave, hcode, hphase, hbits⟩ := startRead_frame s
    exact ⟨hdp, hvalid, hhave, hcode, hphase, hbits, fun _ => view_startRead s⟩
  case dp =>
    intro hi
    obtain ⟨m, hstart⟩ := exec_dp hi s
    cases hstart.symm.trans hexec
    obtain ⟨hrd, hdpIn, htd10, hdomain, hrange, hsat, hmode, hdone⟩ := startDp_frame m s
    exact ⟨hrd, hdpIn, htd10, hdomain, hrange, hsat, hmode, hdone, fun _ => view_startDp m s⟩

/-! ## The cycle of a command -/

theorem decoderSteps_eq_false {s : State}
    (h : s.rd.phase = .idle ∨ s.timer.presc.toNat < s.timing.tickDiv.toNat) : decoderSteps s = false := by
  obtain hidle | hnotick := h
  · rw [decoderSteps, (rdBusy_eq_false_iff _).mpr hidle, Bool.false_and]
  · have htick : isTick s.timing s.timer = false := decide_eq_false (Nat.not_le.mpr hnotick)
    rw [decoderSteps, htick, Bool.and_false]

/-- Where the frame decoder does not step, the read unit is as the host operation left it (20_memory.md R66). -/
theorem readAfter_of_not_decoderSteps {s : State} (h : decoderSteps s = false) (s1 : State) :
    readAfter s s1 = (s1.rd, false) := by
  rw [readAfter, h, if_neg Bool.false_ne_true]

theorem HostIf.raise_getLsbD_of_pending {h : HostIf} {k : Nat} (hk : h.intPend.getLsbD k = true) (set : BitVec 3) :
    (h.raise set).intPend.getLsbD k = true := by
  rw [HostIf.raise_intPend, BitVec.getLsbD_or, hk, Bool.true_or]

/-- Settles O12: a CMD write of the command's word has the command's effect, and the components of `advance` are read
off. -/
theorem stepRunsTheDecodedCommand : Obligations.StepRunsTheDecodedCommand := by
  refine ⟨fun s i w _ hr hop hdecode => ?_, fun s s1 op hr hop h1 => ?_⟩
  · obtain ⟨s1, hexec, -⟩ := exec_effect i s
    obtain rfl := (decode_eq_ok_iff w i).mp hdecode
    have hwrite : hostStep s (.wr (offsetOf .cmd) (encode i)) = .next s1 := by
      rw [hostStep_cmd, command_encode, hexec]
    rw [step_of_host hr hop hwrite, hexec]
    rfl
  · refine ⟨_, step_of_host hr hop h1, rfl, rfl, rfl, rfl, rfl,
      fun k hk => HostIf.raise_getLsbD_of_pending hk _, fun hrest => ?_, fun hidle => ?_, rfl⟩
    · rw [advance_rd, readAfter_of_not_decoderSteps (decoderSteps_eq_false hrest)]
    · rw [advance_dp, dpAfter_of_idle hidle]

/-! ## Independence of the units -/

/-- A relation between states that every part of a host operation keeps. -/
structure KeptByHost (R : State → State → Prop) : Prop where
  hostError : ∀ {s s'} c, R s s' → R (hostError c s) (hostError c s')
  startRead : ∀ {s s'}, R s s' → R (startRead s) (startRead s')
  startDp : ∀ {s s'} m, R s s' → R (startDp m s) (startDp m s')
  writeReg : ∀ {s s'} data r, R s s' → R (writeReg s data r) (writeReg s' data r)

section
variable {R : State → State → Prop} {s s' s1 s1' t t' : State}

theorem KeptByHost.of_exec (hR : KeptByHost R) (h : R s s') {i : Instr} (h1 : exec i s = .next s1)
    (h1' : exec i s' = .next s1') : R s1 s1' := by
  cases i with
  | nop => cases h1; cases h1'; exact h
  | read => cases h1; cases h1'; exact hR.startRead h
  | dpPrecise => cases h1; cases h1'; exact hR.startDp .precise h
  | dpFast => cases h1; cases h1'; exact hR.startDp .fast h

theorem KeptByHost.of_command (hR : KeptByHost R) (h : R s s') {w : Word} (h1 : command s w = .next s1)
    (h1' : command s' w = .next s1') : R s1 s1' := by
  unfold command at h1 h1'
  cases hd : decode w with
  | ok i => rw [hd] at h1 h1'; exact hR.of_exec h h1 h1'
  | error e => rw [hd] at h1 h1'; cases h1; cases h1'; exact hR.hostError .illegal h

theorem KeptByHost.of_hostStep (hR : KeptByHost R) (h : R s s') {op : HostOp} (h1 : hostStep s op = .next s1)
    (h1' : hostStep s' op = .next s1') : R s1 s1' := by
  cases op with
  | idle => cases h1; cases h1'; exact h
  | rd off => cases h1; cases h1'; exact h
  | wr off data =>
    cases hreg : regAt off with
    | none =>
      rw [hostStep_wr, hreg, ite_self] at h1 h1'
      cases h1; cases h1'; exact h
    | some r =>
      obtain rfl := offsetOf_of_regAt hreg
      by_cases hcmd : r = .cmd
      · subst hcmd
        exact hR.of_command h h1 h1'
      · rw [hostStep_reg _ _ hcmd] at h1 h1'
        cases h1; cases h1'; exact hR.writeReg data r h

/-- Two steps on the same inputs from related states: both reset, or both advance from related effects of one host
operation. -/
theorem KeptByHost.steps (hR : KeptByHost R) (h : R s s') (henv : s'.env = s.env) (hstep : step s = .next t)
    (hstep' : step s' = .next t') :
    (t = resetCycle s ∧ t' = resetCycle s') ∨
    ∃ s1 s1' out out', R s1 s1' ∧ t = advance s s1 out ∧ t' = advance s' s1' out' := by
  obtain ⟨hrst, rfl⟩ | ⟨hr, op, s1, hop, h1, -, rfl⟩ := step_next_cases hstep
  · cases (step_of_reset (henv ▸ hrst)).symm.trans hstep'
    exact .inl ⟨rfl, rfl⟩
  · have hr' : running s' := ⟨henv ▸ hr.1, henv ▸ hr.2⟩
    obtain ⟨s1', h1', -, rfl⟩ := step_running hr' (henv ▸ hop) hstep'
    exact .inr ⟨s1, s1', _, _, hR.of_hostStep h h1 h1', rfl, rfl⟩

end

/-- The states differ in the dew-point unit and the interrupt registers alone. -/
def SameButDp (s s' : State) : Prop := ∃ (d : DpUnit) (h : HostIf), s' = { s with dp := d, hif := h }

/-- The states differ in the read unit, its registers, the pulse timer, LINE_Q and the interrupt registers alone. -/
def SameButRead (s s' : State) : Prop :=
  ∃ (r : ReadUnit) (tm : Timing) (p : PulseTimer) (q : Bool) (h : HostIf),
    s' = { s with rd := r, timing := tm, timer := p, lineQ := q, hif := h }

/-- The read side decides alike in both states; where a dew-point lock decides, it may accept in one state and refuse in
the other, and either way only the dew-point unit and the interrupt registers change. -/
theorem sameButDp_keptByHost : KeptByHost SameButDp where
  hostError := by
    rintro s _ c ⟨d, h, rfl⟩
    exact ⟨d, _, rfl⟩
  startRead := by
    rintro s _ ⟨d, h, rfl⟩
    cases hb : rdBusy s.rd <;> simp only [startRead, hb] <;> exact ⟨d, _, rfl⟩
  startDp := by
    rintro s _ m ⟨d, h, rfl⟩
    simp only [startDp]
    split <;> split <;> exact ⟨_, _, rfl⟩
  writeReg := by
    rintro s _ data r ⟨d, h, rfl⟩
    cases r with
    | timing k => cases hb : rdBusy s.rd <;> simp only [writeReg, writeTiming, hb] <;> exact ⟨d, _, rfl⟩
    | dpIn => simp only [writeReg, writeDpIn]; split <;> split <;> exact ⟨_, _, rfl⟩
    | _ => exact ⟨d, _, rfl⟩

/-- The dew-point side decides alike in both states; where RD_BUSY decides, it may accept in one state and refuse in the
other, and either way only the read side and the interrupt registers change. -/
theorem sameButRead_keptByHost : KeptByHost SameButRead where
  hostError := by
    rintro s _ c ⟨r, tm, p, q, h, rfl⟩
    exact ⟨_, _, _, _, _, rfl⟩
  startRead := by
    rintro s _ ⟨r, tm, p, q, h, rfl⟩
    simp only [startRead]
    split <;> split <;> exact ⟨_, _, _, _, _, rfl⟩
  startDp := by
    rintro s _ m ⟨r, tm, p, q, h, rfl⟩
    cases hb : s.dp.busy <;> simp only [startDp, hb] <;> exact ⟨_, _, _, _, _, rfl⟩
  writeReg := by
    rintro s _ data reg ⟨r, tm, p, q, h, rfl⟩
    cases reg with
    | timing k => simp only [writeReg, writeTiming]; split <;> split <;> exact ⟨_, _, _, _, _, rfl⟩
    | dpIn => cases hb : s.dp.busy <;> simp only [writeReg, writeDpIn, hb] <;> exact ⟨_, _, _, _, _, rfl⟩
    | _ => exact ⟨_, _, _, _, _, rfl⟩

/-- Settles O56: a host operation keeps either relation, and a unit's advance reads nothing the relation lets differ. -/
theorem unitsAreIndependent : Obligations.UnitsAreIndependent := by
  refine fun s t t' hstep => ⟨fun d h hstep' => ?_, fun r tm p q h hstep' => ?_⟩
  · obtain ⟨rfl, rfl⟩ | ⟨s1, _, _, _, ⟨d1, h1, rfl⟩, rfl, rfl⟩ :=
      sameButDp_keptByHost.steps ⟨d, h, rfl⟩ rfl hstep hstep'
    · exact ⟨rfl, rfl, rfl, rfl⟩
    · exact ⟨rfl, rfl, rfl, rfl⟩
  · obtain ⟨rfl, rfl⟩ | ⟨s1, _, _, _, ⟨r1, tm1, p1, q1, h1, rfl⟩, rfl, rfl⟩ :=
      sameButRead_keptByHost.steps ⟨r, tm, p, q, h, rfl⟩ rfl hstep hstep'
    · rfl
    · rfl

/-! ## Busy units and the host -/

/-- The read unit after a running step with PHASE ≠ IDLE, whatever the host does (40_commands.md R108). -/
theorem step_of_rdBusy {s t : State} (hr : running s) (hbusy : s.rd.phase ≠ .idle) (hstep : step s = .next t) :
    t.rd = (readAfter s s).1 ∧ t.timing = s.timing := by
  obtain ⟨hrst, -⟩ | ⟨-, op, s1, -, -, heffect, rfl⟩ := step_next_cases hstep
  · exact absurd (hr.1.symm.trans hrst) Bool.false_ne_true
  · obtain ⟨hrd, htiming⟩ := heffect.of_rdBusy ((rdBusy_eq_true_iff _).mpr hbusy)
    refine ⟨?_, htiming⟩
    rw [advance_rd, readAfter, readAfter, hrd]

/-- The dew-point unit after a running step with DP_BUSY = 1, whatever the host does (44_dewpoint.md R214). -/
theorem step_of_dpBusy {s t : State} (hr : running s) (hbusy : s.dp.busy = true) (hstep : step s = .next t) :
    t.dp = (dpStep s.dp).1 := by
  obtain ⟨hrst, -⟩ | ⟨-, op, s1, -, -, -, rfl⟩ := step_next_cases hstep
  · exact absurd (hr.1.symm.trans hrst) Bool.false_ne_true
  · rw [advance_dp, dpAfter, hbusy, if_pos rfl]

/-- Settles O57: what a busy unit does is a function of the pre-state that does not read the host's program. -/
theorem busyUnitsIgnoreTheHost : Obligations.BusyUnitsIgnoreTheHost := by
  intro s t t' prog hr hstep hstep'
  have hr' : running { s with env := { s.env with program := prog } } := hr
  refine ⟨fun hbusy => ?_, fun hbusy => ?_⟩
  · obtain ⟨hrd, htiming⟩ := step_of_rdBusy hr hbusy hstep
    obtain ⟨hrd', htiming'⟩ := step_of_rdBusy hr' hbusy hstep'
    exact ⟨hrd'.trans hrd.symm, htiming'.trans htiming.symm⟩
  · exact (step_of_dpBusy hr' hbusy hstep').trans (step_of_dpBusy hr hbusy hstep).symm

end Sys2Proof.Machine
end

section
/-! PROOFS. The pulse timer and edge waiter family: PRESC and US_COUNT (41_pulse_timer_edge_waiter.md R120, R121), and
what `hold` and `wait_level` make of a list of ticks (R123-R125). -/

namespace Sys2Proof.Machine

/-! ## The pulse timer -/

theorem isTick_eq_true {tm : Timing} {p : PulseTimer} (h : tm.tickDiv.toNat ≤ p.presc.toNat) : isTick tm p = true :=
  decide_eq_true h

theorem isTick_eq_false {tm : Timing} {p : PulseTimer} (h : p.presc.toNat < tm.tickDiv.toNat) : isTick tm p = false :=
  decide_eq_false (by omega)

theorem timerStep_tick (p : PulseTimer) : timerStep true p = { presc := 0, usCount := p.usCount + 1 } := rfl

theorem timerStep_noTick (p : PulseTimer) : timerStep false p = { presc := p.presc + 1, usCount := p.usCount } := rfl

/-- The pulse timer and LINE_Q after a running step, whatever the host does (20_memory.md R66). -/
theorem step_timer {s t : State} (hr : running s) (hstep : step s = .next t) :
    t.timer = timerStep (isTick s.timing s.timer) s.timer ∧ t.lineQ = lineNow s.env := by
  obtain ⟨hrst, -⟩ | ⟨-, op, s1, -, -, -, rfl⟩ := step_next_cases hstep
  · exact absurd (hr.1.symm.trans hrst) Bool.false_ne_true
  · exact ⟨advance_timer .., advance_lineQ ..⟩

/-- Settles O31: below TICK_DIV, PRESC has room for one more. -/
theorem pulseTimerStep : Obligations.PulseTimerStep := by
  intro s t hr hstep
  obtain ⟨htimer, hline⟩ := step_timer hr hstep
  refine ⟨fun htick => ?_, fun hno => ?_, hline⟩
  · rw [htimer, isTick_eq_true htick, timerStep_tick]
    exact ⟨rfl, BitVec.toNat_add _ _⟩
  · rw [htimer, isTick_eq_false hno, timerStep_noTick]
    exact ⟨BitVec.toNat_add_of_lt (by bv_omega), rfl⟩

/-! ## Ticks that only count -/

/-- The last tick runs on the read unit the earlier ones leave. -/
theorem decoderTicks_concat (tm : Timing) (r : ReadUnit) (ls : List Bool) (l : Bool) :
    decoderTicks tm r (ls ++ [l]) = (frameStep tm (decoderTicks tm r ls) l).1 := by
  rw [decoderTicks_append, decoderTicks, decoderTicks]

/-- A count up to a 16-bit register's value fits in CNT. -/
theorem toNat_ofNat_of_le {k : Nat} {n : Half} (h : k ≤ n.toNat) : (BitVec.ofNat 16 k).toNat = k := by
  rw [BitVec.toNat_ofNat, Nat.mod_eq_of_lt (h.trans_lt n.isLt)]

/-- From CNT = 0, ticks that only count leave their number in CNT. -/
theorem decoderTicks_of_stay {tm : Timing} {r : ReadUnit} (h0 : r.cnt = 0#16) {ls : List Bool}
    (hstay : ∀ k < ls.length, ∀ l ∈ ls,
      frameStep tm { r with cnt := BitVec.ofNat 16 k } l = stay { r with cnt := BitVec.ofNat 16 k }) :
    decoderTicks tm r ls = { r with cnt := BitVec.ofNat 16 ls.length } := by
  induction ls using List.reverseRecOn with
  | nil => rw [decoderTicks, List.length_nil, ← h0]
  | append_singleton ls l ih =>
    rw [List.length_append, List.length_singleton] at hstay ⊢
    have hls := ih fun k hk l' hl' => hstay k (by omega) l' (List.mem_append_left _ hl')
    rw [decoderTicks_concat, hls, hstay _ (Nat.lt_succ_self _) l (by simp), stay, BitVec.ofNat_add]
    rfl

/-! ## `hold` -/

theorem hold_of_le {n cnt : Half} (h : n.toNat ≤ cnt.toNat + 1) : hold n cnt = .done := if_pos h

theorem hold_of_lt {n cnt : Half} (h : cnt.toNat + 1 < n.toNat) : hold n cnt = .waiting := if_neg (by omega)

/-- The three phases that hold, with their registers (42_frame_decoder.md R144, R145, R150). -/
def holdTable (tm : Timing) : Phase → Option Half
  | .stab => some tm.tStab
  | .start => some tm.tStart
  | .bSample => some tm.tSample
  | .idle | .check | .wPres | .wSyncL | .wSyncH | .bLow | .bHigh => none

/-- A phase of `holdTable` counts as long as `hold` waits (41_pulse_timer_edge_waiter.md R123). -/
theorem frameStep_of_hold_waiting {tm : Timing} {r : ReadUnit} {n : Half} (hn : holdTable tm r.phase = some n)
    (hwaiting : hold n r.cnt = .waiting) (line : Bool) : frameStep tm r line = stay r := by
  unfold frameStep
  cases hp : r.phase <;> rw [hp] at hn <;> cases hn
  case stab => simp only [stepStab, hwaiting]
  case start => simp only [stepStart, hwaiting]
  case bSample => simp only [stepBSample, hwaiting]

section
variable {tm : Timing} {r : ReadUnit} {n : Half} (hn : holdTable tm r.phase = some n) (h0 : r.cnt = 0#16)
  {ls : List Bool}
include hn h0

/-- A hold of N counts below max(N, 1) whatever the line does (41_pulse_timer_edge_waiter.md R123). -/
theorem decoderTicks_hold (hlen : ls.length < max n.toNat 1) :
    decoderTicks tm r ls = { r with cnt := BitVec.ofNat 16 ls.length } := by
  refine decoderTicks_of_stay h0 fun k hk l _ => ?_
  refine frameStep_of_hold_waiting (r := { r with cnt := .ofNat 16 _ }) hn (hold_of_lt ?_) l
  rw [toNat_ofNat_of_le (n := n) (by omega)]
  omega

/-- The exit tick of a hold is tick max(N, 1) (41_pulse_timer_edge_waiter.md R123). -/
theorem decoderTicks_hold_exit (hlen : ls.length + 1 = max n.toNat 1) (l : Bool) :
    decoderTicks tm r (ls ++ [l]) = (frameStep tm { r with cnt := BitVec.ofNat 16 ls.length } l).1 ∧
      hold n (BitVec.ofNat 16 ls.length) = .done := by
  rw [decoderTicks_concat, decoderTicks_hold hn h0 (by omega)]
  refine ⟨rfl, hold_of_le ?_⟩
  rw [toNat_ofNat_of_le (n := n) (by omega)]
  omega

end

/-! ## The samples and exits of the phases -/

theorem frameStep_check {r : ReadUnit} (hp : r.phase = .check) (tm : Timing) (line : Bool) :
    frameStep tm r line = if line then enter .stab r else complete .busBusy r := by
  rw [frameStep, hp]
  rfl

theorem frameStep_stab_done {tm : Timing} {r : ReadUnit} (hp : r.phase = .stab) (hdone : hold tm.tStab r.cnt = .done)
    (line : Bool) : frameStep tm r line = enter .start r := by
  simp only [frameStep, hp, stepStab, hdone]

theorem frameStep_start_done {tm : Timing} {r : ReadUnit} (hp : r.phase = .start)
    (hdone : hold tm.tStart r.cnt = .done) (line : Bool) :
    frameStep tm r line = if line then complete .badStart r else enter .wPres r := by
  simp only [frameStep, hp, stepStart, hdone]

theorem frameStep_bSample_done {tm : Timing} {r : ReadUnit} (hp : r.phase = .bSample)
    (hdone : hold tm.tSample r.cnt = .done) (line : Bool) : frameStep tm r line =
      enter .bHigh { r with shift := shiftIn r.shift line, bitcnt := r.bitcnt + 1 } := by
  simp only [frameStep, hp, stepBSample, hdone]

/-- Settles O32: CHECK by its one sample; each hold counts by `decoderTicks_hold`, and its exit tick is the phase's
exit action. -/
theorem holdLastsItsTicks : Obligations.HoldLastsItsTicks := by
  intro tm r ls l h0
  refine ⟨fun hp => ?_, fun hp => ?_, fun hp => ?_, fun hp => ?_⟩
  · refine ⟨by rw [hp]; rfl, ?_, ?_⟩
    · rw [decoderTicks, frameStep_check hp]
      rfl
    · rw [decoderTicks, frameStep_check hp, ← hp]
      rfl
  · have hn : holdTable tm r.phase = some tm.tStab := by rw [hp]; rfl
    refine ⟨decoderTicks_hold hn h0, fun hlen => ?_⟩
    obtain ⟨hticks, hdone⟩ := decoderTicks_hold_exit hn h0 hlen l
    rw [hticks, frameStep_stab_done (r := { r with cnt := .ofNat 16 _ }) hp hdone]
    rfl
  · have hn : holdTable tm r.phase = some tm.tStart := by rw [hp]; rfl
    refine ⟨decoderTicks_hold hn h0, fun hlen => ⟨?_, ?_⟩⟩
    · obtain ⟨hticks, hdone⟩ := decoderTicks_hold_exit hn h0 hlen false
      rw [hticks, frameStep_start_done (r := { r with cnt := .ofNat 16 _ }) hp hdone]
      rfl
    · obtain ⟨hticks, hdone⟩ := decoderTicks_hold_exit hn h0 hlen true
      rw [hticks, frameStep_start_done (r := { r with cnt := .ofNat 16 _ }) hp hdone, ← hp]
      rfl
  · have hn : holdTable tm r.phase = some tm.tSample := by rw [hp]; rfl
    refine ⟨decoderTicks_hold hn h0, fun hlen => ?_⟩
    obtain ⟨hticks, hdone⟩ := decoderTicks_hold_exit hn h0 hlen l
    rw [hticks, frameStep_bSample_done (r := { r with cnt := .ofNat 16 _ }) hp hdone]
    rfl

/-! ## `wait_level` -/

theorem waitThen_of_seen (level : Bool) (bound : Half) (next : Phase) (code : Code) (r : ReadUnit) :
    waitThen level bound next code r level = enter next r := by
  rw [waitThen, waitLevel, if_pos rfl]

section
variable {level line : Bool} {bound : Half} {r : ReadUnit} (hmiss : line ≠ level)
include hmiss

theorem waitThen_of_timeout (hcnt : bound.toNat ≤ r.cnt.toNat) (next : Phase) (code : Code) :
    waitThen level bound next code r line = complete code r := by
  rw [waitThen, waitLevel, if_neg hmiss, if_pos hcnt]

theorem waitThen_of_waiting (hcnt : r.cnt.toNat < bound.toNat) (next : Phase) (code : Code) :
    waitThen level bound next code r line = stay r := by
  rw [waitThen, waitLevel, if_neg hmiss, if_neg (by omega)]

end

/-- The level seen after bit 40 is the one tick of the five waits that `waitThen` does not describe
(42_frame_decoder.md R152). -/
def endsFrame (level line : Bool) (r : ReadUnit) : Prop := line = level ∧ r.phase = .bHigh ∧ 40 ≤ r.bitcnt.toNat

/-- B_HIGH is a `waitThen` but at the end of the frame. -/
theorem stepBHigh_eq_waitThen {tm : Timing} {r : ReadUnit} {line : Bool} (h : line = false → r.bitcnt.toNat < 40) :
    stepBHigh tm r line = waitThen false tm.toBitH .bLow .dataTimeout r line := by
  unfold stepBHigh waitThen
  rcases waitLevel_cases false tm.toBitH line r.cnt with ⟨e, hline⟩ | ⟨e, -⟩ | ⟨e, -⟩ <;> rw [e]
  exact if_pos (h hline)

section
variable {tm : Timing} {r : ReadUnit} {level : Bool} {bound : Half} {next : Phase} {code : Code}
  (hwait : waitTable tm r.phase = some (level, bound, next, code))
include hwait

/-- A phase of the wait table is a `waitThen` (42_frame_decoder.md R154), but at the end of the frame. -/
theorem frameStep_eq_waitThen {line : Bool} (hend : ¬ endsFrame level line r) :
    frameStep tm r line = waitThen level bound next code r line := by
  unfold frameStep
  cases hp : r.phase <;> rw [hp] at hwait <;> cases hwait
  case bHigh => exact stepBHigh_eq_waitThen fun hline => Nat.lt_of_not_le fun hb => hend ⟨hline, hp, hb⟩
  all_goals rfl

variable (h0 : r.cnt = 0#16)
include h0

/-- A wait counts its polls as long as they miss the level, up to its timeout (41_pulse_timer_edge_waiter.md R124). -/
theorem decoderTicks_wait {ls : List Bool} (hlen : ls.length ≤ bound.toNat) (hmiss : ∀ l ∈ ls, l ≠ level) :
    decoderTicks tm r ls = { r with cnt := BitVec.ofNat 16 ls.length } := by
  refine decoderTicks_of_stay h0 fun k hk l hl => ?_
  rw [frameStep_eq_waitThen (r := { r with cnt := .ofNat 16 _ }) hwait fun hend => hmiss l hl hend.1,
    waitThen_of_waiting (hmiss l hl)]
  rw [toNat_ofNat_of_le (n := bound) (by omega)]
  omega

/-- A poll at the level after at most TO misses enters the next phase (41_pulse_timer_edge_waiter.md R125). -/
theorem decoderTicks_wait_seen {ls : List Bool} (hlen : ls.length ≤ bound.toNat) (hmiss : ∀ l ∈ ls, l ≠ level)
    (hnext : r.phase ≠ .bHigh ∨ r.bitcnt.toNat < 40) :
    decoderTicks tm r (ls ++ [level]) = { r with phase := next, cnt := 0#16 } := by
  have hend : ¬ endsFrame level level { r with cnt := BitVec.ofNat 16 ls.length } := by
    rintro ⟨-, hp, hb⟩
    exact hnext.elim (fun hne => hne hp) (Nat.not_lt_of_le hb)
  rw [decoderTicks_concat, decoderTicks_wait hwait h0 hlen hmiss,
    frameStep_eq_waitThen (r := { r with cnt := .ofNat 16 _ }) hwait hend, waitThen_of_seen]
  rfl

/-- Poll TO + 1 is the last one (41_pulse_timer_edge_waiter.md R125). -/
theorem decoderTicks_wait_timeout {ls : List Bool} (hlen : ls.length = bound.toNat + 1) (hmiss : ∀ l ∈ ls, l ≠ level) :
    decoderTicks tm r ls = { r with
      phase := .idle, cnt := bound, lastCode := code, lastPhase := r.phase, lastBits := r.bitcnt } := by
  obtain rfl | ⟨init, l, rfl⟩ := List.eq_nil_or_concat' ls
  · exact absurd hlen (by simp)
  · have hinit : init.length = bound.toNat := by simpa using hlen
    have hl : l ≠ level := hmiss l (by simp)
    have hcnt : BitVec.ofNat 16 init.length = bound := by rw [hinit, BitVec.ofNat_toNat, BitVec.setWidth_eq]
    rw [decoderTicks_concat,
      decoderTicks_wait hwait h0 hinit.le fun l' hl' => hmiss l' (List.mem_append_left _ hl'), hcnt,
      frameStep_eq_waitThen (r := { r with cnt := bound }) hwait fun hend => hl hend.1, waitThen_of_timeout hl]
    · rfl
    · exact Nat.le_refl _

end

/-! ## The end of the frame -/

/-- B_HIGH's exit after bit 40 (42_frame_decoder.md R152). -/
theorem frameStep_bHigh_finish {r : ReadUnit} (hp : r.phase = .bHigh) (hb : 40 ≤ r.bitcnt.toNat) (tm : Timing) :
    frameStep tm r false = finishFrame r := by
  simp only [frameStep, hp, stepBHigh, waitLevel, if_true, if_neg (Nat.not_lt_of_le hb)]

/-- Whatever the checksum, the end of a frame completes with the packed bits in RAW (42_frame_decoder.md R152, R153). -/
theorem finishFrame_record (r : ReadUnit) :
    (finishFrame r).1.phase = .idle ∧ (finishFrame r).1.rawFull = true ∧ (finishFrame r).1.raw = pack r.shift ∧
      (finishFrame r).1.lastPhase = r.phase := by
  rcases finishFrame_cases r with ⟨-, e⟩ | ⟨-, e⟩ <;> rw [e] <;> exact ⟨rfl, rfl, rfl, rfl⟩

/-- Settles O33: the polls that miss count; the next poll succeeds, ends the frame after bit 40, or is poll TO + 1. -/
theorem waitMakesAtMostTimeoutPlusOnePolls : Obligations.WaitMakesAtMostTimeoutPlusOnePolls := by
  intro tm r level bound next code hwait h0
  refine ⟨fun ls hlen hmiss => ⟨?_, decoderTicks_wait_seen hwait h0 hlen hmiss, fun hp hb => ?_⟩,
    fun ls => decoderTicks_wait_timeout hwait h0⟩
  · rw [decoderTicks_wait hwait h0 hlen hmiss]
  · obtain rfl : level = false := by rw [hp] at hwait; cases hwait; rfl
    have hend : decoderTicks tm r (ls ++ [false]) = (finishFrame { r with cnt := BitVec.ofNat 16 ls.length }).1 := by
      rw [decoderTicks_concat, decoderTicks_wait hwait h0 hlen hmiss,
        frameStep_bHigh_finish (r := { r with cnt := .ofNat 16 _ }) hp hb]
    rw [hend, ← hp]
    exact finishFrame_record _

end Sys2Proof.Machine
end

section
/-! PROOFS. The frame decoder family: how a running step moves the read unit (42_frame_decoder.md R140-R142), the
completion record (60_exceptions.md R231), and the pulses of a frame (42_frame_decoder.md R149-R155). -/

namespace Sys2Proof.Machine

/-! ## One tick: the phase and the completion record -/

/-- A phase is entered in the phase order (42_frame_decoder.md R140). -/
theorem Enters.mem_mayFollow {r : ReadUnit} {p : Phase} (h : Enters r p) : p ∈ mayFollow r.phase := by
  cases h with
  | _ hp => rw [hp]; decide

/-- A phase that fails is one that can complete (42_frame_decoder.md R154). -/
theorem Fails.idle_mem_mayFollow {tm : Timing} {r : ReadUnit} {c : Code} (h : Fails tm r c) :
    .idle ∈ mayFollow r.phase := by
  cases h with
  | _ hp => rw [hp]; decide

theorem self_mem_mayFollow (p : Phase) : p ∈ mayFollow p := by cases p <;> decide

theorem finishFrame_phase (r : ReadUnit) : (finishFrame r).1.phase = .idle := (finishFrame_record r).1

/-- A tick leaves PHASE, or moves it along the phase order (42_frame_decoder.md R140, R141). -/
theorem frameStep_phase_mem_mayFollow (tm : Timing) {r : ReadUnit} (hp : r.phase ≠ .idle) (line : Bool) :
    (frameStep tm r line).1.phase ∈ mayFollow r.phase := by
  have heffect := frameStep_effect tm r line hp
  generalize frameStep tm r line = result at heffect
  cases heffect with
  | count _ => exact self_mem_mayFollow _
  | next p henters => exact henters.mem_mayFollow
  | sample hsample _ => rw [hsample, enter_phase]; decide
  | fail c hfail => exact hfail.idle_mem_mayFollow
  | finish hhigh _ _ => rw [hhigh, finishFrame_phase]; decide

/-- The completion record of `r'` is that of `r`. -/
def SameRecord (r r' : ReadUnit) : Prop :=
  r'.lastCode = r.lastCode ∧ r'.lastPhase = r.lastPhase ∧ r'.lastBits = r.lastBits

/-- `r'` records the completion of the transaction of `r`: its phase and bit count, with BITCNT and SHIFT kept and a
code that is not NONE (42_frame_decoder.md R141). -/
def RecordsCompletion (r r' : ReadUnit) : Prop :=
  r'.lastPhase = r.phase ∧ r'.lastBits = r.bitcnt ∧ r'.bitcnt = r.bitcnt ∧ r'.shift = r.shift ∧ r'.lastCode ≠ .none

theorem Fails.code_ne_none {tm : Timing} {r : ReadUnit} {c : Code} (h : Fails tm r c) : c ≠ .none := by
  cases h <;> decide

theorem finishFrame_recordsCompletion (r : ReadUnit) : RecordsCompletion r (finishFrame r).1 := by
  rcases finishFrame_cases r with ⟨-, e⟩ | ⟨-, e⟩ <;> rw [e] <;> exact ⟨rfl, rfl, rfl, rfl, by simp⟩

/-- A tick either goes on and keeps the completion record, or completes and writes it. -/
theorem frameStep_record (tm : Timing) {r : ReadUnit} (hp : r.phase ≠ .idle) (line : Bool) :
    ((frameStep tm r line).1.phase ≠ .idle ∧ SameRecord r (frameStep tm r line).1) ∨
    ((frameStep tm r line).1.phase = .idle ∧ RecordsCompletion r (frameStep tm r line).1) := by
  have heffect := frameStep_effect tm r line hp
  generalize frameStep tm r line = result at heffect
  cases heffect with
  | count _ => exact .inl ⟨hp, rfl, rfl, rfl⟩
  | next p henters => exact .inl ⟨henters.phase_ne_idle, rfl, rfl, rfl⟩
  | sample _ _ => exact .inl ⟨by simp, rfl, rfl, rfl⟩
  | fail c hfail => exact .inr ⟨rfl, rfl, rfl, rfl, rfl, hfail.code_ne_none⟩
  | finish _ _ _ => exact .inr ⟨finishFrame_phase r, finishFrame_recordsCompletion r⟩

/-! ## One step: how the read unit moves -/

theorem isTick_eq_true_iff (tm : Timing) (p : PulseTimer) : isTick tm p = true ↔ tm.tickDiv.toNat ≤ p.presc.toNat :=
  decide_eq_true_iff

theorem decoderSteps_eq_true_iff (s : State) :
    decoderSteps s = true ↔ s.rd.phase ≠ .idle ∧ s.timing.tickDiv.toNat ≤ s.timer.presc.toNat := by
  rw [decoderSteps, Bool.and_eq_true, rdBusy_eq_true_iff, isTick_eq_true_iff]

/-- Everything a running step can do to the read unit: a tick of the frame decoder while busy, nothing, or the start of
a transaction while idle (42_frame_decoder.md R142; 40_commands.md R103). -/
theorem step_rd_cases {s t : State} (hr : running s) (hstep : step s = .next t) :
    (s.rd.phase ≠ .idle ∧ s.timing.tickDiv.toNat ≤ s.timer.presc.toNat ∧
      t.rd = (frameStep s.timing s.rd (lineNow s.env)).1) ∨
    t.rd = s.rd ∨
    (s.rd.phase = .idle ∧ t.rd = s.rd.accept) := by
  obtain ⟨hrst, -⟩ | ⟨-, op, s1, -, -, heffect, rfl⟩ := step_next_cases hstep
  · exact absurd (hr.1.symm.trans hrst) Bool.false_ne_true
  · rw [advance_rd]
    obtain ⟨hticks, e⟩ | ⟨-, e⟩ | ⟨hidle, e⟩ := readAfter_cases heffect <;> rw [e]
    · obtain ⟨hbusy, htick⟩ := (decoderSteps_eq_true_iff s).mp hticks
      exact .inl ⟨hbusy, htick, rfl⟩
    · exact .inr (.inl rfl)
    · exact .inr (.inr ⟨(rdBusy_eq_false_iff _).mp hidle, rfl⟩)

/-- Settles O36: a tick follows the phase order, and an accepted READ leads from IDLE to CHECK. -/
theorem phasesFollowTheOrder : Obligations.PhasesFollowTheOrder := by
  intro s t hr hstep
  obtain ⟨hbusy, -, hrd⟩ | hrd | ⟨hidle, hrd⟩ := step_rd_cases hr hstep <;> rw [hrd]
  · exact frameStep_phase_mem_mayFollow _ hbusy _
  · exact self_mem_mayFollow _
  · rw [hidle, ReadUnit.accept_phase]; decide

/-- No register write touches the read unit (20_memory.md R65). -/
theorem writeReg_rd (s : State) (data : Word) (r : Reg) : (writeReg s data r).rd = s.rd := by
  cases r with
  | timing k => simp only [writeReg, writeTiming]; split <;> rfl
  | dpIn => simp only [writeReg, writeDpIn]; split <;> rfl
  | _ => rfl

/-- No command but READ touches the read unit (40_commands.md R102, R105). -/
theorem exec_rd {s s1 : State} {i : Instr} (hi : i ≠ .read) (h1 : exec i s = .next s1) : s1.rd = s.rd := by
  cases i with
  | nop => cases h1; rfl
  | read => exact absurd rfl hi
  | dpPrecise => cases h1; exact (startDp_frame .precise s).1
  | dpFast => cases h1; exact (startDp_frame .fast s).1

/-- No CMD write but READ's word touches the read unit (40_commands.md R100). -/
theorem command_rd {s s1 : State} {w : Word} (hw : w ≠ encode .read) (h1 : command s w = .next s1) : s1.rd = s.rd := by
  cases hd : decode w with
  | error e =>
    rw [command_of_decode_error s ⟨e, hd⟩] at h1
    cases h1
    rfl
  | ok i =>
    obtain rfl := (decode_eq_ok_iff w i).mp hd
    rw [command_encode] at h1
    exact exec_rd (fun hi => hw (congrArg encode hi)) h1

/-- No host operation but the write of READ touches the read unit (20_memory.md R66). -/
theorem hostStep_rd {s s1 : State} {op : HostOp} (hop : op ≠ .wr (offsetOf .cmd) (encode .read))
    (h1 : hostStep s op = .next s1) : s1.rd = s.rd := by
  cases op with
  | idle => cases h1; rfl
  | rd off => cases h1; rfl
  | wr off data =>
    cases hreg : regAt off with
    | none =>
      rw [hostStep_wr, hreg, ite_self] at h1
      cases h1
      rfl
    | some r =>
      obtain rfl := offsetOf_of_regAt hreg
      by_cases hcmd : r = .cmd
      · subst hcmd
        exact command_rd (fun hw => hop (congrArg _ hw)) h1
      · rw [hostStep_reg s data hcmd] at h1
        cases h1
        exact writeReg_rd s data r

theorem hostStep_read (s : State) : hostStep s (.wr (offsetOf .cmd) (encode .read)) = .next (startRead s) := by
  rw [hostStep_cmd, command_encode, exec_read]

/-- An idle read unit is after a running step as the host operation left it (40_commands.md R103). -/
theorem step_rd_of_idle {s t : State} (hr : running s) (hidle : s.rd.phase = .idle) (hstep : step s = .next t) :
    ∃ op s1, hostNext s.env.program = some op ∧ hostStep s op = .next s1 ∧ t.rd = s1.rd := by
  obtain ⟨hrst, -⟩ | ⟨-, op, s1, hop, h1, -, rfl⟩ := step_next_cases hstep
  · exact absurd (hr.1.symm.trans hrst) Bool.false_ne_true
  · refine ⟨op, s1, hop, h1, ?_⟩
    rw [advance_rd, readAfter_of_not_decoderSteps (decoderSteps_eq_false (.inl hidle))]

/-- Settles O37: a busy unit by its tick, whatever the host does; an idle one as the host operation leaves it, and only
READ's write touches it. -/
theorem readUnitMovesOnlyByTickOrRead : Obligations.ReadUnitMovesOnlyByTickOrRead := by
  intro s t hr hstep
  refine ⟨fun hbusy hno => ?_, fun hbusy htick => ?_, fun hidle hop => ?_, fun hidle hop => ?_⟩
  · rw [(step_of_rdBusy hr hbusy hstep).1, readAfter_of_not_decoderSteps (decoderSteps_eq_false (.inr hno))]
  · rw [(step_of_rdBusy hr hbusy hstep).1, readAfter, (decoderSteps_eq_true_iff s).mpr ⟨hbusy, htick⟩, if_pos rfl]
    rfl
  · obtain ⟨op, s1, hop', h1, hrd⟩ := step_rd_of_idle hr hidle hstep
    rw [hrd, hostStep_rd (fun hread => hop (hop'.trans (congrArg some hread))) h1]
  · obtain ⟨op, s1, hop', h1, hrd⟩ := step_rd_of_idle hr hidle hstep
    cases hop.symm.trans hop'
    cases (hostStep_read s).symm.trans h1
    rw [hrd, startRead_of_idle hidle]

/-- A running step in which a transaction ends sets RD_DONE, whatever the host clears (42_frame_decoder.md R141). -/
theorem step_sets_rdDone {s t : State} (hr : running s) (hstep : step s = .next t) (hbusy : s.rd.phase ≠ .idle)
    (hidle : t.rd.phase = .idle) : t.hif.intPend.getLsbD 0 = true := by
  obtain ⟨hrst, -⟩ | ⟨-, op, s1, -, -, heffect, rfl⟩ := step_next_cases hstep
  · exact absurd (hr.1.symm.trans hrst) Bool.false_ne_true
  · have hdone : (readAfter s s1).2 = true := by
      rw [readAfter_done heffect, ← advance_rd s s1 (busReply s op), (rdBusy_eq_true_iff _).mpr hbusy,
        (rdBusy_eq_false_iff _).mpr hidle]
      rfl
    rw [advance_hif, HostIf.raise_intPend, hdone, doneSet_rdDone]

/-- Settles O38: only a tick leads from a busy unit to IDLE, and `frameStep_record` says what it records; the code fits
by the invariant the tick keeps. -/
theorem completionRecordIsPrecise : Obligations.CompletionRecordIsPrecise := by
  intro s t hinv hr hstep
  obtain ⟨hbusy, htick, hrd⟩ | hrd | ⟨hidle, hrd⟩ := step_rd_cases hr hstep
  · have hfits := (frameStep_keeps_readInv hinv hbusy (lineNow s.env)).record
    have hrecord := frameStep_record s.timing hbusy (lineNow s.env)
    rw [← hrd] at hfits hrecord
    obtain ⟨hgoes, hsame⟩ | ⟨hidle, hphase, hbits, hbitcnt, hshift, hcode⟩ := hrecord
    · exact ⟨fun _ hidle => absurd hidle hgoes, fun _ => hsame⟩
    · exact ⟨fun _ _ =>
          ⟨htick, hphase, hbits, hbitcnt, hshift, step_sets_rdDone hr hstep hbusy hidle, hcode, hfits⟩,
        fun hgoes => absurd hidle (hgoes.resolve_left hbusy)⟩
  · rw [hrd]
    exact ⟨fun hbusy hidle => absurd hidle hbusy, fun _ => ⟨rfl, rfl, rfl⟩⟩
  · rw [hrd]
    exact ⟨fun hbusy => absurd hidle hbusy, fun _ => ⟨rfl, rfl, rfl⟩⟩

/-! ## One pulse -/

/-- The read unit in B_HIGH with one more bit of the given value (42_frame_decoder.md R150). -/
def ReadUnit.sampled (r : ReadUnit) (bit : Bool) : ReadUnit :=
  { r with phase := .bHigh, cnt := 0#16, bitcnt := r.bitcnt + 1, shift := shiftIn r.shift bit }

/-- From B_LOW, the line's high level and D = max(T_SAMPLE, 1) more ticks sample the last of them (42_frame_decoder.md
R149, R150). -/
theorem decoderTicks_bLow_sample (tm : Timing) {r : ReadUnit} (hp : r.phase = .bLow) {ls : List Bool}
    (hlen : ls.length + 1 = sampleDelay tm) (l : Bool) :
    decoderTicks tm r (true :: (ls ++ [l])) = r.sampled l := by
  have hrise : frameStep tm r true = enter .bSample r := by
    simp only [frameStep, hp, stepBLow, waitThen_of_seen]
  obtain ⟨hticks, hdone⟩ :=
    decoderTicks_hold_exit (r := (enter .bSample r).1) (n := tm.tSample) rfl rfl hlen l
  rw [decoderTicks, hrise, hticks,
    frameStep_bSample_done (r := { (enter .bSample r).1 with cnt := .ofNat 16 _ }) rfl hdone]
  rfl

/-- A pulse of `w` high ticks and low ticks up to the sample tick: the rising edge, and D ticks of which the last is high
exactly if w > D (42_frame_decoder.md R151). -/
theorem pulse_eq_edge_append_sample {w d : Nat} (hw : 1 ≤ w) (hd : 1 ≤ d) (hle : w ≤ d + 1) :
    ∃ ls : List Bool, ls.length + 1 = d ∧
      List.replicate w true ++ List.replicate (d + 1 - w) false = true :: (ls ++ [decide (d < w)]) := by
  obtain ⟨k, rfl⟩ := Nat.exists_eq_add_of_le' hw
  obtain ⟨d, rfl⟩ := Nat.exists_eq_add_of_le' hd
  obtain rfl | hlt := Nat.eq_or_lt_of_le (Nat.le_of_succ_le_succ hle)
  · refine ⟨List.replicate d true, by rw [List.length_replicate], ?_⟩
    rw [Nat.sub_self, List.replicate_zero, List.append_nil, List.replicate_succ, List.replicate_succ',
      decide_eq_true (Nat.lt_succ_self _)]
  · refine ⟨List.replicate k true ++ List.replicate (d - k) false, by simp; omega, ?_⟩
    rw [show d + 1 + 1 - (k + 1) = d - k + 1 by omega, List.replicate_succ, List.replicate_succ', List.cons_append,
      List.append_assoc, decide_eq_false (by omega)]

theorem sampleDelay_pos (tm : Timing) : 1 ≤ sampleDelay tm := Nat.le_max_right _ _

/-- The bit of a pulse of `w` ticks (42_frame_decoder.md R151). -/
def pulseBit (tm : Timing) (w : Nat) : Bool := decide (sampleDelay tm < w)

/-- A pulse of `w` ticks, low from its end to the sample tick, is sampled as its bit (42_frame_decoder.md R151). -/
theorem decoderTicks_pulse (tm : Timing) {r : ReadUnit} (hp : r.phase = .bLow) {w : Nat} (hw : 1 ≤ w)
    (hle : w ≤ sampleDelay tm + 1) :
    decoderTicks tm r (List.replicate w true ++ List.replicate (sampleDelay tm + 1 - w) false) =
      r.sampled (pulseBit tm w) := by
  obtain ⟨ls, hlen, hpulse⟩ := pulse_eq_edge_append_sample hw (sampleDelay_pos tm) hle
  rw [hpulse, decoderTicks_bLow_sample tm hp hlen, pulseBit]

/-- Settles O34: the pulse is a rising edge and D ticks, and the last of them is the sample. -/
theorem pulseWidthClassifier : Obligations.PulseWidthClassifier :=
  fun tm _ _ hp hw hle => decoderTicks_pulse tm hp hw hle

/-! ## One bit of a frame -/

/-- The samples of one bit: the low phase, a pulse cut off at the sample tick, and what B_HIGH sees of the rest. -/
theorem bitWave_eq (tm : Timing) (low w : Nat) :
    bitWave tm low w = List.replicate low false ++
      ((List.replicate (min w (sampleDelay tm + 1)) true ++
        List.replicate (sampleDelay tm + 1 - min w (sampleDelay tm + 1)) false) ++
      (List.replicate (w - (sampleDelay tm + 1)) true ++ [false])) := by
  rw [bitWave]
  obtain hshort | hlong := Nat.le_total w (sampleDelay tm + 1)
  · rw [Nat.min_eq_left hshort, Nat.sub_eq_zero_of_le hshort, List.replicate_zero, List.nil_append, List.append_assoc]
  · rw [Nat.min_eq_right hlong, Nat.sub_eq_zero_of_le hlong, Nat.sub_self, List.replicate_zero, List.nil_append,
      List.append_nil, ← List.append_assoc (List.replicate _ true), List.replicate_append_replicate,
      Nat.add_sub_cancel' hlong]

theorem pulseBit_min (tm : Timing) (w : Nat) : pulseBit tm (min w (sampleDelay tm + 1)) = pulseBit tm w :=
  decide_eq_decide.mpr (by omega)

/-- An accepted bit is sampled, and B_HIGH polls what is left of its pulse (42_frame_decoder.md R149-R152). -/
theorem decoderTicks_bitWave {tm : Timing} {r : ReadUnit} (hp : r.phase = .bLow) (h0 : r.cnt = 0#16) {low w : Nat}
    (hacc : acceptedPulse tm low w) :
    decoderTicks tm r (bitWave tm low w) =
      decoderTicks tm (r.sampled (pulseBit tm w)) (List.replicate (w - (sampleDelay tm + 1)) true ++ [false]) := by
  obtain ⟨hlow, hw, -⟩ := hacc
  have hwait : waitTable tm r.phase = some (true, tm.toBitL, .bSample, .dataTimeout) := by rw [hp]; rfl
  rw [bitWave_eq, decoderTicks_append, decoderTicks_append,
    decoderTicks_wait hwait h0 (by rwa [List.length_replicate]) (by simp),
    decoderTicks_pulse (r := { r with cnt := .ofNat 16 _ }) tm hp (by omega) (by omega), pulseBit_min]
  rfl

/-- B_HIGH polls at most TO_BIT_H high ticks of an accepted pulse (42_frame_decoder.md R155). -/
theorem acceptedPulse.sub_le {tm : Timing} {low w : Nat} (hacc : acceptedPulse tm low w) :
    w - (sampleDelay tm + 1) ≤ tm.toBitH.toNat := by
  obtain ⟨-, -, hhigh⟩ := hacc
  omega

/-! ## The bits of a frame -/

/-- The read unit with the given bits captured, in order (42_frame_decoder.md R150). -/
def ReadUnit.captured (r : ReadUnit) (bits : List Bool) : ReadUnit :=
  { r with bitcnt := r.bitcnt + BitVec.ofNat 6 bits.length, shift := bits.foldl shiftIn r.shift }

theorem ReadUnit.captured_nil (r : ReadUnit) : r.captured [] = r := by
  simp [ReadUnit.captured]

/-- A sampled bit is the last one captured. -/
theorem ReadUnit.sampled_captured (r : ReadUnit) (bits : List Bool) (b : Bool) :
    (r.captured bits).sampled b = { r.captured (bits ++ [b]) with phase := .bHigh, cnt := 0#16 } := by
  simp only [ReadUnit.captured, ReadUnit.sampled, List.length_append, List.length_singleton, List.foldl_append,
    List.foldl_cons, List.foldl_nil, BitVec.ofNat_add, BitVec.add_assoc]
  rfl

/-- The bits of a list of pulses (42_frame_decoder.md R151). -/
def pulseBits (tm : Timing) (ws : List (Nat × Nat)) : List Bool := ws.map fun x => pulseBit tm x.2

/-- The samples of a list of pulses. -/
def frameWave (tm : Timing) (ws : List (Nat × Nat)) : List Bool := ws.flatMap fun x => bitWave tm x.1 x.2

theorem pulseBits_concat (tm : Timing) (ws : List (Nat × Nat)) (x : Nat × Nat) :
    pulseBits tm (ws ++ [x]) = pulseBits tm ws ++ [pulseBit tm x.2] := List.map_append

/-- From BITCNT = 0, BITCNT is the number of pulses (42_frame_decoder.md R150). -/
theorem captured_pulseBits_bitcnt (tm : Timing) {r : ReadUnit} (hb : r.bitcnt = 0#6) {ws : List (Nat × Nat)}
    (hlen : ws.length ≤ 40) : (r.captured (pulseBits tm ws)).bitcnt.toNat = ws.length := by
  rw [ReadUnit.captured, hb, BitVec.zero_add, BitVec.toNat_ofNat, pulseBits, List.length_map,
    Nat.mod_eq_of_lt (by omega)]

theorem frameWave_concat (tm : Timing) (ws : List (Nat × Nat)) (x : Nat × Nat) :
    frameWave tm (ws ++ [x]) = frameWave tm ws ++ bitWave tm x.1 x.2 := by
  rw [frameWave, List.flatMap_append, List.flatMap_singleton, frameWave]

/-- After bit 40, B_HIGH's low poll ends the frame, however long it waited (42_frame_decoder.md R152). -/
theorem decoderTicks_bHigh_finish {tm : Timing} {r : ReadUnit} (hp : r.phase = .bHigh) (h0 : r.cnt = 0#16)
    (hb : 40 ≤ r.bitcnt.toNat) {n : Nat} (hn : n ≤ tm.toBitH.toNat) :
    decoderTicks tm r (List.replicate n true ++ [false]) = (finishFrame r).1 := by
  have hwait : waitTable tm r.phase = some (false, tm.toBitH, .bLow, .dataTimeout) := by rw [hp]; rfl
  rw [decoderTicks_concat, decoderTicks_wait hwait h0 (by rwa [List.length_replicate]) (by simp),
    frameStep_bHigh_finish (r := { r with cnt := .ofNat 16 _ }) hp hb]
  rfl

section
variable {tm : Timing} {r : ReadUnit} (hp : r.phase = .bLow) (h0 : r.cnt = 0#16) (hb : r.bitcnt = 0#6)
include hp h0 hb

/-- Up to bit 39, accepted pulses are captured one by one, and B_LOW is entered for the next (42_frame_decoder.md
R152, R155). -/
theorem decoderTicks_frameWave {ws : List (Nat × Nat)} (hlen : ws.length < 40)
    (hacc : ∀ x ∈ ws, acceptedPulse tm x.1 x.2) :
    decoderTicks tm r (frameWave tm ws) = r.captured (pulseBits tm ws) := by
  induction ws using List.reverseRecOn with
  | nil => exact r.captured_nil.symm
  | append_singleton ws x ih =>
    have hbits : (r.captured (pulseBits tm (ws ++ [x]))).bitcnt.toNat < 40 :=
      (captured_pulseBits_bitcnt tm hb hlen.le).trans_lt hlen
    rw [List.length_append, List.length_singleton] at hlen
    have hx : acceptedPulse tm x.1 x.2 := hacc x (by simp)
    have hws := ih (by omega) fun y hy => hacc y (List.mem_append_left _ hy)
    rw [frameWave_concat, decoderTicks_append, hws, decoderTicks_bitWave (r := r.captured _) hp h0 hx,
      ReadUnit.sampled_captured, ← pulseBits_concat,
      decoderTicks_wait_seen (r := { r.captured _ with phase := .bHigh, cnt := 0#16 }) (bound := tm.toBitH) rfl rfl
        (by rw [List.length_replicate]; exact hx.sub_le) (by simp) (.inr hbits)]
    simp only [ReadUnit.captured, hp, h0]

/-- The fortieth accepted pulse ends the frame (42_frame_decoder.md R152). -/
theorem decoderTicks_frameWave_finish {ws : List (Nat × Nat)} (hlen : ws.length = 40)
    (hacc : ∀ x ∈ ws, acceptedPulse tm x.1 x.2) :
    decoderTicks tm r (frameWave tm ws) =
      (finishFrame { r.captured (pulseBits tm ws) with phase := .bHigh, cnt := 0#16 }).1 := by
  obtain rfl | ⟨init, x, rfl⟩ := List.eq_nil_or_concat' ws
  · exact absurd hlen (by simp)
  · have hbits : 40 ≤ (r.captured (pulseBits tm (init ++ [x]))).bitcnt.toNat :=
      (hlen.symm.trans (captured_pulseBits_bitcnt tm hb hlen.le).symm).le
    rw [List.length_append, List.length_singleton] at hlen
    have hx : acceptedPulse tm x.1 x.2 := hacc x (by simp)
    have hinit := decoderTicks_frameWave hp h0 hb (by omega) fun y hy => hacc y (List.mem_append_left _ hy)
    rw [frameWave_concat, decoderTicks_append, hinit, decoderTicks_bitWave (r := r.captured _) hp h0 hx,
      ReadUnit.sampled_captured, ← pulseBits_concat]
    exact decoderTicks_bHigh_finish (r := { r.captured _ with phase := .bHigh, cnt := 0#16 }) rfl rfl hbits hx.sub_le

end

/-- Settles O35: the pulses capture their bits and end the frame, whose two outcomes are `finishFrame`'s. -/
theorem acceptedPulsesCaptureTheFrame : Obligations.AcceptedPulsesCaptureTheFrame := by
  intro tm r ws hp h0 hb hlen hacc sh
  have h40 : (r.captured (pulseBits tm ws)).bitcnt = 40#6 :=
    BitVec.eq_of_toNat_eq ((captured_pulseBits_bitcnt tm hb hlen.le).trans hlen)
  change decoderTicks tm r (frameWave tm ws) = _
  rw [decoderTicks_frameWave_finish hp h0 hb hlen hacc]
  obtain ⟨hok, e⟩ | ⟨hbad, e⟩ :=
    finishFrame_cases { r.captured (pulseBits tm ws) with phase := .bHigh, cnt := 0#16 }
  · replace hok : checksumOk (pack sh) = true := hok
    rw [e, h40, hok]
    rfl
  · replace hbad : checksumOk (pack sh) = false := hbad
    rw [e, h40, hbad]
    rfl

end Sys2Proof.Machine
end

section
/-! PROOFS. The frame validator family: READING in both variants (43_frame_validator.md R175-R177), the release of a
frame (R172, R173), and the errors the checksum detects (R170, R171). -/

namespace Sys2Proof.Machine

/-! ## READING -/

theorem view_reading (s : State) : view s 0x48#8 = readingWord s.params.variant s.rd.valid := rfl

/-- Variant 1's temperature, with the sign in bit 7 of byte 2 (43_frame_validator.md R176). -/
theorem tempX10_v1 (f : Frame) : tempX10 .v1 f =
    if f.b2.getLsbD 7 then -((f.b2.toNat % 128 * 256 + f.b3.toNat : Nat) : Int)
    else ((f.b2.toNat % 128 * 256 + f.b3.toNat : Nat) : Int) := by
  rw [tempX10, tempMag_eq, BitVec.msb_eq_getLsbD_last]

/-- TEMP_X10 fits READING's high half as a signed number (43_frame_validator.md R177). -/
theorem tempX10_bounds (v : Variant) (f : Frame) : -32768 ≤ tempX10 v f ∧ tempX10 v f ≤ 32767 := by
  have h2 := f.b2.isLt
  have h3 := f.b3.isLt
  cases v with
  | v0 => simp only [tempX10]; omega
  | v1 => rw [tempX10_v1]; split <;> omega

/-- READING's low half is HUM_X10 (10_state.md R42). -/
theorem readingWord_lo_toNat (v : Variant) (f : Frame) : ((readingWord v f).extractLsb' 0 16).toNat = humX10 v f := by
  rw [readingWord, extractLsb'_lo, BitVec.toNat_ofNat, Nat.mod_eq_of_lt (humX10_lt v f)]

/-- READING's high half, as a signed number, is TEMP_X10 (10_state.md R42). -/
theorem readingWord_hi_toInt (v : Variant) (f : Frame) : ((readingWord v f).extractLsb' 16 16).toInt = tempX10 v f := by
  obtain ⟨hlo, hhi⟩ := tempX10_bounds v f
  rw [readingWord, extractLsb'_hi, toHalf]
  exact BitVec.toInt_ofInt_eq_self (by decide) hlo (by omega)

/-- Settles O28: READING's halves are the numbers of R175, which fit them. -/
theorem readingOfVariant0 : Obligations.ReadingOfVariant0 := by
  intro s hv
  rw [view_reading, hv, readingWord_lo_toNat, readingWord_hi_toInt]
  exact ⟨rfl, rfl⟩

/-- Settles O29: READING's halves are the numbers of R176, which fit them. -/
theorem readingOfVariant1 : Obligations.ReadingOfVariant1 := by
  intro s hv
  rw [view_reading, hv, readingWord_lo_toNat, readingWord_hi_toInt]
  exact ⟨humX10_v1 _, tempX10_v1 _⟩

/-! ## The release of a frame -/

/-- A tick that does not end a frame leaves VALID and HAVE_VALID (43_frame_validator.md R173). -/
theorem frameStep_keeps_valid (tm : Timing) {r : ReadUnit} {line : Bool} (hend : ¬ endsFrame false line r) :
    (frameStep tm r line).1.valid = r.valid ∧ (frameStep tm r line).1.haveValid = r.haveValid := by
  by_cases hp : r.phase = .idle
  · rw [frameStep_idle tm r line hp]
    exact ⟨rfl, rfl⟩
  · have heffect := frameStep_effect tm r line hp
    generalize frameStep tm r line = result at heffect
    cases heffect with
    | count _ | next _ _ | sample _ _ | fail _ _ => exact ⟨rfl, rfl⟩
    | finish hhigh hb hl => exact absurd ⟨hl, hhigh, hb⟩ hend

/-- A good checksum releases the packed frame (43_frame_validator.md R173). -/
theorem finishFrame_good {r : ReadUnit} (hok : checksumOk (pack r.shift) = true) :
    (finishFrame r).1.valid = (finishFrame r).1.raw ∧ (finishFrame r).1.haveValid = true ∧
      (finishFrame r).1.lastCode = .success := by
  obtain ⟨-, e⟩ | ⟨hbad, -⟩ := finishFrame_cases r
  · rw [e]
    exact ⟨rfl, rfl, rfl⟩
  · exact absurd (hbad.symm.trans hok) Bool.false_ne_true

/-- A bad checksum releases nothing (43_frame_validator.md R173). -/
theorem finishFrame_bad {r : ReadUnit} (hbad : checksumOk (pack r.shift) = false) :
    (finishFrame r).1.valid = r.valid ∧ (finishFrame r).1.haveValid = r.haveValid ∧
      (finishFrame r).1.lastCode = .badChecksum := by
  obtain ⟨hok, -⟩ | ⟨-, e⟩ := finishFrame_cases r
  · exact absurd (hbad.symm.trans hok) Bool.false_ne_true
  · rw [e]
    exact ⟨rfl, rfl, rfl⟩

/-- Settles O39: the tick that ends the frame is `finishFrame`; every other tick, and the start of a transaction, keep
VALID and HAVE_VALID. -/
theorem onlySuccessReleasesAFrame : Obligations.OnlySuccessReleasesAFrame := by
  intro s t hr hstep
  obtain ⟨-, htick, -, -⟩ := readUnitMovesOnlyByTickOrRead s t hr hstep
  refine ⟨fun hp hb hpresc hl => ?_, fun hno => ?_⟩
  · have hrd : t.rd = (finishFrame s.rd).1 := by
      rw [htick (by rw [hp]; decide) hpresc, hl, decoderTicks, frameStep_bHigh_finish hp hb, decoderTicks]
    obtain ⟨hidle, hfull, hraw, -⟩ := finishFrame_record s.rd
    rw [hrd]
    exact ⟨hidle, hfull, hraw, finishFrame_good, finishFrame_bad⟩
  · obtain ⟨-, hpresc, hrd⟩ | hrd | ⟨-, hrd⟩ := step_rd_cases hr hstep <;> rw [hrd]
    · exact frameStep_keeps_valid _ fun ⟨hl, hp, hb⟩ => hno ⟨hp, hb, hpresc, hl⟩
    · exact ⟨rfl, rfl⟩
    · exact ⟨rfl, rfl⟩

/-! ## The flip of one bit -/

/-- Flipping a 0 at position k adds 2 ^ k. -/
theorem xor_twoPow_of_clear {w : Nat} {x : BitVec w} {k : Nat} (hk : x.getLsbD k = false) :
    x ^^^ BitVec.twoPow w k = x + BitVec.twoPow w k := by
  have hdisjoint : x &&& BitVec.twoPow w k = 0#w := by rw [BitVec.and_twoPow, hk, if_neg Bool.false_ne_true]
  rw [BitVec.add_eq_or_of_and_eq_zero _ _ hdisjoint]
  ext i hi
  have hbit := congrArg (·[i]) hdisjoint
  simp only [BitVec.getElem_and, BitVec.getElem_zero] at hbit
  rw [BitVec.getElem_xor, BitVec.getElem_or]
  revert hbit
  cases x[i] <;> simp

/-- Flipping a 1 at position k subtracts 2 ^ k, as flipping it back adds it. -/
theorem xor_twoPow_of_set {w : Nat} {x : BitVec w} {k : Nat} (hk : x.getLsbD k = true) :
    x ^^^ BitVec.twoPow w k = x - BitVec.twoPow w k := by
  have hw : k < w := BitVec.lt_of_getLsbD hk
  have hclear : (x ^^^ BitVec.twoPow w k).getLsbD k = false := by simp [hk, hw]
  have hback := xor_twoPow_of_clear hclear
  rw [BitVec.xor_assoc, BitVec.xor_self, BitVec.xor_zero] at hback
  exact eq_sub_of_add_eq hback.symm

/-- Flipping a bit changes the number. -/
theorem xor_twoPow_ne {w : Nat} (x : BitVec w) {k : Nat} (hk : k < w) : x ^^^ BitVec.twoPow w k ≠ x := by
  intro h
  have hbit := congrArg (·.getLsbD k) h
  simp [hk] at hbit

/-! ## The checksum -/

/-- Exactly one checksum byte fits a payload (43_frame_validator.md R170, R171). -/
theorem checksumOk_iff (f : Frame) : checksumOk f = true ↔
    f.b4 = BitVec.ofNat 8 ((f.b0.toNat + f.b1.toNat + f.b2.toNat + f.b3.toNat) % 256) := by
  rw [checksumOk, decide_eq_true_iff, ← BitVec.toNat_inj, BitVec.toNat_ofNat, Nat.mod_mod]
  exact eq_comm

/-- By how much, mod 256, a frame's payload sum exceeds its checksum byte. -/
def Frame.excess (f : Frame) : Byte := f.b0 + f.b1 + f.b2 + f.b3 - f.b4

/-- A frame is valid exactly if it has no excess (43_frame_validator.md R170). -/
theorem checksumOk_iff_excess (f : Frame) : checksumOk f = true ↔ f.excess = 0 := by
  have hsum : BitVec.ofNat 8 ((f.b0.toNat + f.b1.toNat + f.b2.toNat + f.b3.toNat) % 256) =
      f.b0 + f.b1 + f.b2 + f.b3 := by
    bv_omega
  rw [checksumOk_iff, hsum, Frame.excess, sub_eq_zero]
  exact eq_comm

/-- A replaced byte keeps the excess only if it is the byte it replaces. -/
theorem Frame.excess_withByte_eq_iff (f : Frame) (i : Fin 5) (v : Byte) :
    (f.withByte i v).excess = f.excess ↔ v = f.byte i := by
  fin_cases i <;> simp [Frame.excess, Frame.withByte, Frame.byte]

/-- A replaced payload byte adds its own change to the excess. -/
theorem Frame.excess_withByte_payload (f : Frame) {i : Fin 5} (hi : i.val < 4) (v : Byte) :
    (f.withByte i v).excess = f.excess + (v - f.byte i) := by
  match i with
  | 0 | 1 | 2 | 3 => simp only [Frame.excess, Frame.withByte, Frame.byte]; ring
  | 4 => exact absurd hi (by decide)

theorem Frame.byte_withByte (f : Frame) (i j : Fin 5) (v : Byte) :
    (f.withByte i v).byte j = if i = j then v else f.byte j := by
  fin_cases i <;> fin_cases j <;> rfl

/-- A valid frame with one bit flipped has a non-zero excess (43_frame_validator.md R171). -/
theorem checksumOk_flip {f : Frame} (hok : checksumOk f = true) (i : Fin 5) {k : Nat} (hk : k < 8) :
    checksumOk (f.withByte i (f.byte i ^^^ BitVec.twoPow 8 k)) = false := by
  rw [← Bool.not_eq_true, checksumOk_iff_excess, ← (checksumOk_iff_excess f).mp hok, f.excess_withByte_eq_iff]
  exact xor_twoPow_ne _ hk

/-- The flips of a 0 and of a 1 at one position of two payload bytes cancel in the sum (43_frame_validator.md R171). -/
theorem excess_cancelling_flips {f : Frame} {i j : Fin 5} (hi : i.val < 4) (hj : j.val < 4) (hij : i ≠ j) {k : Nat}
    (hclear : (f.byte i).getLsbD k = false) (hset : (f.byte j).getLsbD k = true) :
    ((f.withByte i (f.byte i ^^^ BitVec.twoPow 8 k)).withByte j (f.byte j ^^^ BitVec.twoPow 8 k)).excess =
      f.excess := by
  rw [Frame.excess_withByte_payload _ hj, Frame.byte_withByte, if_neg hij, Frame.excess_withByte_payload f hi,
    xor_twoPow_of_clear hclear, xor_twoPow_of_set hset]
  ring

/-- Settles O40: a frame is valid exactly if it has no excess, which a single flip changes and two opposite flips at one
position keep. -/
theorem checksumDetectsSingleBitErrors : Obligations.ChecksumDetectsSingleBitErrors := by
  refine ⟨fun f x => checksumOk_iff (f.withByte 4 x), fun f i k hk hok => ?_,
    fun f i j k hi hj hij _ hclear hset => ?_⟩
  · rw [← BitVec.twoPow_eq]
    exact checksumOk_flip hok i hk
  · rw [← BitVec.twoPow_eq, Bool.eq_iff_iff, checksumOk_iff_excess, checksumOk_iff_excess,
      excess_cancelling_flips hi hj hij hclear hset]

end Sys2Proof.Machine
end

section
/-! PROOFS. The dew point family: the two logarithms (44_dewpoint.md R193-R196), the flags (R208-R210), the quotient and
air saturation (R200-R202), the worked example (R203), the fast mode's deviation (R212) and the countdown (R214,
R215). -/

namespace Sys2Proof.Machine

/-! ## The logarithms -/

theorem log2PreciseQ20_1000 : (log2PreciseQ20 1000 : Int) = cP := by decide

theorem log2FastQ20_1000 : (log2FastQ20 1000 : Int) = cF := by decide

/-- The squaring loop of the mantissa 1.0 finds no bit (44_dewpoint.md R193). -/
theorem log2Loop_one (k r : Nat) : log2Loop k (2 ^ 31) r = r := by
  induction k with
  | zero => rfl
  | succ k ih =>
    have hsquare : (2 ^ 31 * 2 ^ 31) >>> 31 = 2 ^ 31 := by decide
    rw [log2Loop, hsquare, if_neg (by decide), ih]

theorem log2PreciseQ20_bounds (v : Nat) :
    v.log2 * 2 ^ 20 ≤ log2PreciseQ20 v ∧ log2PreciseQ20 v < (v.log2 + 1) * 2 ^ 20 := by
  have hloop := log2Loop_bound 20 (v <<< (31 - msb v)) (msb v <<< 20)
  rw [Nat.shiftLeft_eq (msb v)] at hloop
  rw [log2PreciseQ20, Nat.shiftLeft_eq (msb v), Nat.succ_mul]
  exact hloop

theorem log2PreciseQ20_two_pow {e : Nat} (he : e ≤ 31) : log2PreciseQ20 (2 ^ e) = e * 2 ^ 20 := by
  have hmantissa : 2 ^ e <<< (31 - e) = 2 ^ 31 := by rw [Nat.shiftLeft_eq, ← pow_add, Nat.add_sub_cancel' he]
  rw [log2PreciseQ20, msb, Nat.log2_two_pow, hmantissa, log2Loop_one, Nat.shiftLeft_eq]

/-- The interpolated fraction is below 1.0, as the mantissa is below 2.0 (44_dewpoint.md R195). -/
theorem log2FastQ20_fraction_lt {v : Nat} (hv : 1 ≤ v) : ((v - 2 ^ msb v) <<< 20) >>> msb v < 2 ^ 20 := by
  obtain ⟨-, hlt⟩ := msb_bounds hv
  rw [Nat.shiftLeft_eq, Nat.shiftRight_eq_div_pow, Nat.div_lt_iff_lt_mul (Nat.two_pow_pos _)]
  rw [pow_succ] at hlt
  omega

theorem log2FastQ20_bounds {v : Nat} (hv : 1 ≤ v) :
    v.log2 * 2 ^ 20 ≤ log2FastQ20 v ∧ log2FastQ20 v < (v.log2 + 1) * 2 ^ 20 := by
  have hfraction := log2FastQ20_fraction_lt hv
  rw [log2FastQ20, Nat.shiftLeft_eq (msb v), Nat.succ_mul]
  exact ⟨Nat.le_add_right _ _, Nat.add_lt_add_left hfraction _⟩

theorem log2FastQ20_two_pow (e : Nat) : log2FastQ20 (2 ^ e) = e * 2 ^ 20 := by
  rw [log2FastQ20, msb, Nat.log2_two_pow, Nat.sub_self, Nat.zero_shiftLeft, Nat.zero_shiftRight, Nat.add_zero,
    Nat.shiftLeft_eq]

/-- Settles O44: either fraction is below 1.0, and at a power of two it is 0. -/
theorem logarithmsLieInTheirOctave : Obligations.LogarithmsLieInTheirOctave := by
  intro v hv hmax
  refine ⟨log2PreciseQ20_bounds v, log2FastQ20_bounds hv, fun hpow => ?_⟩
  have he : v.log2 ≤ 31 := by
    have hlog : v.log2 < 16 := (Nat.log2_lt (by omega)).mpr (by omega)
    omega
  constructor
  · conv_lhs => rw [hpow]
    exact log2PreciseQ20_two_pow he
  · conv_lhs => rw [hpow]
    exact log2FastQ20_two_pow _

/-! ## The flags -/

theorem outOfRange_eq_true_iff (t10 : Int) (h10 : Nat) :
    outOfRange t10 h10 = true ↔ ¬ (0 ≤ t10 ∧ t10 ≤ 500) ∨ ¬ (200 ≤ h10 ∧ h10 ≤ 900) := by
  simp only [outOfRange, Bool.not_eq_true', ← Bool.not_eq_true, Bool.and_eq_true, decide_eq_true_eq]
  omega

theorem saturate_domain (q : Int) (range : Bool) : (saturate q range).domain = false := by
  obtain ⟨-, e⟩ | ⟨-, e⟩ | ⟨-, -, e⟩ := saturate_cases q range <;> rw [e]

theorem saturate_range (q : Int) (range : Bool) : (saturate q range).range = range := by
  obtain ⟨-, e⟩ | ⟨-, e⟩ | ⟨-, -, e⟩ := saturate_cases q range <;> rw [e]

theorem saturate_td (q : Int) (range : Bool) : (saturate q range).td = max (-32768) (min q 32767) := by
  obtain ⟨hq, e⟩ | ⟨hq, e⟩ | ⟨hlow, hhigh, e⟩ := saturate_cases q range <;> rw [e] <;> dsimp only <;> omega

theorem saturate_sat_eq_true_iff (q : Int) (range : Bool) :
    (saturate q range).sat = true ↔ 32767 < q ∨ q < -32768 := by
  obtain ⟨hq, e⟩ | ⟨hq, e⟩ | ⟨hlow, hhigh, e⟩ := saturate_cases q range <;> rw [e]
  · exact iff_of_true rfl (.inl hq)
  · exact iff_of_true rfl (.inr hq)
  · exact iff_of_false Bool.false_ne_true (by omega)

theorem b10_add_pos_iff (t10 : Int) : 0 < b10 + t10 ↔ -2376 ≤ t10 := by rw [b10]; omega

/-- Where H10 ≠ 0 and B10 + T10 > 0 the dew point is the result from γ (44_dewpoint.md R204). -/
theorem dewPoint_of_domain {t10 : Int} {h10 : Nat} (hh : h10 ≠ 0) (ht : 0 < b10 + t10) (log2 : Nat → Nat) (c : Int) :
    dewPoint log2 c t10 h10 = fromGamma (gammaQ16 ((log2 h10 : Int) - c) t10) (outOfRange t10 h10) :=
  if_neg (by omega)

/-- Inside its domain γ gives the saturated quotient (44_dewpoint.md R200). -/
theorem fromGamma_of_pos {g : Int} (hd : 0 < aQ - g) (range : Bool) :
    fromGamma g range = saturate (rdiv (b10 * g) (aQ - g)) range := if_neg (not_le.mpr hd)

theorem fromGamma_range (g : Int) (range : Bool) : (fromGamma g range).range = range := by
  obtain ⟨-, e⟩ | ⟨-, e⟩ := fromGamma_cases g range <;> rw [e]
  · rfl
  · exact saturate_range _ _

theorem fromGamma_domain_eq_true_iff (g : Int) (range : Bool) :
    (fromGamma g range).domain = true ↔ aQ - g ≤ 0 := by
  obtain ⟨hd, e⟩ | ⟨hd, e⟩ := fromGamma_cases g range <;> rw [e]
  · exact iff_of_true rfl hd
  · rw [saturate_domain]
    exact iff_of_false Bool.false_ne_true (by omega)

theorem dewPoint_domain_eq_true_iff (log2 : Nat → Nat) (c t10 : Int) (h10 : Nat) :
    (dewPoint log2 c t10 h10).domain = true ↔
      h10 = 0 ∨ t10 ≤ -2377 ∨ 1131807 - gammaQ16 ((log2 h10 : Int) - c) t10 ≤ 0 := by
  have hb : b10 + t10 ≤ 0 ↔ t10 ≤ -2377 := by have := b10_add_pos_iff t10; omega
  obtain ⟨hout, e⟩ | ⟨hh, ht, e⟩ := dewPoint_cases log2 c t10 h10 <;> rw [e]
  · rw [hb] at hout
    exact iff_of_true rfl (hout.imp_right .inl)
  · rw [fromGamma_domain_eq_true_iff, ← hb, or_iff_right hh, or_iff_right (not_le.mpr ht), aQ]

theorem dewPoint_range (log2 : Nat → Nat) (c t10 : Int) (h10 : Nat) :
    (dewPoint log2 c t10 h10).range = outOfRange t10 h10 := by
  obtain ⟨-, e⟩ | ⟨-, -, e⟩ := dewPoint_cases log2 c t10 h10 <;> rw [e]
  · rfl
  · exact fromGamma_range _ _

/-- Settles O46: both modes are `dewPoint`, which tests H10 and T10 and leaves the test of d to `fromGamma`. -/
theorem domainFlagOfBothModes : Obligations.DomainFlagOfBothModes := fun t10 h10 =>
  ⟨dewPoint_domain_eq_true_iff _ _ t10 h10, dewPoint_domain_eq_true_iff _ _ t10 h10,
    fun hd => (dewPoint_domain hd).1, fun hd => (dewPoint_domain hd).1⟩

/-- `fromGamma` stores RANGE and does not read it (44_dewpoint.md R210). -/
theorem fromGamma_eq_with_range (g : Int) (a b : Bool) : fromGamma g a = { fromGamma g b with range := a } := by
  unfold fromGamma saturate outOfDomain
  split_ifs <;> rfl

/-- Settles O48: both modes are `dewPoint`, which stores the operands' RANGE. -/
theorem rangeFlagOfBothModes : Obligations.RangeFlagOfBothModes := by
  refine fun t10 h10 => ⟨?_, ?_, fun g a b => ?_⟩
  · rw [preciseDp, dewPoint_range, outOfRange_eq_true_iff]
  · rw [fastDp, dewPoint_range, outOfRange_eq_true_iff]
  · rw [fromGamma_eq_with_range g a b]
    exact ⟨rfl, rfl, rfl⟩

/-! ## The quotient -/

/-- By rounding, q + B10 misses A_Q · B10 / d by at most a half (44_dewpoint.md R200). -/
theorem rdiv_gamma_nearest {g : Int} (hd : 0 < aQ - g) :
    2 * (aQ * b10) - (aQ - g) ≤ 2 * ((rdiv (b10 * g) (aQ - g) + b10) * (aQ - g)) ∧
    2 * ((rdiv (b10 * g) (aQ - g) + b10) * (aQ - g)) ≤ 2 * (aQ * b10) + (aQ - g) := by
  obtain ⟨hlow, hhigh⟩ := rdiv_nearest (b10 * g) hd
  have hexpand : 2 * ((rdiv (b10 * g) (aQ - g) + b10) * (aQ - g)) =
      2 * (rdiv (b10 * g) (aQ - g) * (aQ - g)) + 2 * (aQ * b10) - 2 * (b10 * g) := by ring
  omega

/-- A positive d never gives a result below −B10 (44_dewpoint.md R201). -/
theorem neg_b10_le_rdiv_gamma {g : Int} (hd : 0 < aQ - g) : -b10 ≤ rdiv (b10 * g) (aQ - g) := by
  obtain ⟨hlow, -⟩ := rdiv_gamma_nearest hd
  by_contra hq
  have hneg : (rdiv (b10 * g) (aQ - g) + b10) * (aQ - g) ≤ -1 * (aQ - g) :=
    Int.mul_le_mul_of_nonneg_right (by omega) hd.le
  have hpos : 0 < aQ * b10 := by decide
  omega

theorem fromGamma_sat_eq_true_iff {g : Int} (hd : 0 < aQ - g) (range : Bool) :
    (fromGamma g range).sat = true ↔ 32767 < rdiv (b10 * g) (aQ - g) := by
  have hlow := neg_b10_le_rdiv_gamma hd
  rw [b10] at hlow
  rw [fromGamma_of_pos hd, saturate_sat_eq_true_iff, b10]
  omega

/-- A result in −B10..32767 that is saturated at 32767 only, and then not out of domain (44_dewpoint.md R201, R209). -/
structure SaturatesAtTop (r : DpResult) : Prop where
  low : -2377 ≤ r.td
  high : r.td ≤ 32767
  sat : r.sat = true → r.td = 32767 ∧ r.domain = false

theorem outOfDomain_saturatesAtTop (range : Bool) : SaturatesAtTop (outOfDomain range) :=
  ⟨show (-2377 : Int) ≤ 0 by decide, show (0 : Int) ≤ 32767 by decide, nofun⟩

theorem fromGamma_saturatesAtTop (g : Int) (range : Bool) : SaturatesAtTop (fromGamma g range) := by
  obtain ⟨-, e⟩ | ⟨hd, e⟩ := fromGamma_cases g range
  · rw [e]
    exact outOfDomain_saturatesAtTop range
  · have hlow := neg_b10_le_rdiv_gamma hd
    rw [b10] at hlow
    refine ⟨?_, ?_, fun hsat => ?_⟩
    · rw [e, saturate_td, b10]; omega
    · rw [e, saturate_td]; omega
    · have hq := (fromGamma_sat_eq_true_iff hd range).mp hsat
      rw [e, saturate_td, saturate_domain]
      exact ⟨by omega, rfl⟩

theorem dewPoint_saturatesAtTop (log2 : Nat → Nat) (c t10 : Int) (h10 : Nat) :
    SaturatesAtTop (dewPoint log2 c t10 h10) := by
  obtain ⟨-, e⟩ | ⟨-, -, e⟩ := dewPoint_cases log2 c t10 h10 <;> rw [e]
  · exact outOfDomain_saturatesAtTop _
  · exact fromGamma_saturatesAtTop _ _

theorem dpResult_saturatesAtTop (m : DpMode) (op : Word) : SaturatesAtTop (dpResult m op) := by
  cases m <;> exact dewPoint_saturatesAtTop _ _ _ _

/-- Settles O47: a quotient of a positive d is at least −B10, so that only the upper bound of int16 can be left. -/
theorem saturationOnlyAtTheTop : Obligations.SaturationOnlyAtTheTop := by
  intro m op
  obtain ⟨hlow, hhigh, hsat⟩ := dpResult_saturatesAtTop m op
  exact ⟨⟨hlow, hhigh⟩, hsat,
    fun g hd => ⟨neg_b10_le_rdiv_gamma hd, fun range => fromGamma_sat_eq_true_iff hd range⟩⟩

/-! ## Air saturation -/

/-- At H10 = 1000 the logarithm vanishes and γ is the temperature term (44_dewpoint.md R202). -/
theorem gammaQ16_zero (t10 : Int) : gammaQ16 0 t10 = tempTerm t10 := Int.zero_add _

/-- A rounded quotient is the one integer that misses by less than a half (00_scope.md R11). -/
theorem rdiv_eq_of_near {n d q : Int} (hd : 0 < d) (hnear : 2 * |n - q * d| < d) : rdiv n d = q := by
  obtain ⟨hlow, hhigh⟩ := rdiv_nearest n hd
  have habove := le_abs_self (n - q * d)
  have hbelow := neg_abs_le (n - q * d)
  have hsub : (rdiv n d - q) * d = rdiv n d * d - q * d := Int.sub_mul _ _ _
  have hlt : rdiv n d - q < 1 := Int.lt_of_mul_lt_mul_right (show _ < 1 * d by omega) hd.le
  have hgt : -1 < rdiv n d - q := Int.lt_of_mul_lt_mul_right (show -1 * d < _ by omega) hd.le
  omega

/-- What the truncation of the temperature term leaves (44_dewpoint.md R198). -/
def tempTermError (t10 : Int) : Int := aQ * t10 - tempTerm t10 * (b10 + t10)

theorem abs_tempTermError_lt {t10 : Int} (ht : 0 < b10 + t10) : |tempTermError t10| < b10 + t10 := by
  have hlt := natAbs_sub_tdiv_mul_lt (aQ * t10) ht.ne'
  rw [tempTermError, tempTerm, ← Int.natCast_natAbs]
  omega

/-- At H10 = 1000 the exact quotient misses T10 by the truncation's error over d: B10·g − T10·d = −error. -/
theorem b10_mul_tempTerm_sub (t10 : Int) :
    b10 * tempTerm t10 - t10 * (aQ - tempTerm t10) = -tempTermError t10 := by
  rw [tempTermError]; ring

/-- At H10 = 1000 that error is less than half of d, for every s16 temperature: d · (B10 + T10) = A_Q · B10 + error,
and A_Q · B10 exceeds 2 · (B10 + T10)². -/
theorem two_mul_abs_tempTermError_lt {t10 : Int} (hlow : -2376 ≤ t10) (hhigh : t10 ≤ 32767) :
    2 * |tempTermError t10| < aQ - tempTerm t10 := by
  have hpos : 0 < b10 + t10 := (b10_add_pos_iff t10).mpr hlow
  have herror := abs_tempTermError_lt hpos
  have hd : (aQ - tempTerm t10) * (b10 + t10) = aQ * b10 + tempTermError t10 := by rw [tempTermError]; ring
  have hsize : 2 * ((b10 + t10) * (b10 + t10)) < aQ * b10 := by
    have hmax : b10 + t10 ≤ 35144 := by rw [b10]; omega
    have hsquare : (b10 + t10) * (b10 + t10) ≤ 35144 * 35144 := mul_self_le_mul_self hpos.le hmax
    exact lt_of_le_of_lt (Int.mul_le_mul_of_nonneg_left hsquare (by decide)) (by decide)
  have hneg := neg_abs_le (tempTermError t10)
  generalize |tempTermError t10| = e at *
  have hle : e * (b10 + t10) ≤ (b10 + t10 - 1) * (b10 + t10) := Int.mul_le_mul_of_nonneg_right (by omega) hpos.le
  refine Int.lt_of_mul_lt_mul_right (a := b10 + t10) ?_ hpos.le
  rw [hd, Int.mul_assoc]
  rw [Int.sub_mul] at hle
  omega

/-- At H10 = 1000 the quotient is T10 (44_dewpoint.md R202). -/
theorem fromGamma_tempTerm {t10 : Int} (hlow : -2376 ≤ t10) (hhigh : t10 ≤ 32767) (range : Bool) :
    fromGamma (tempTerm t10) range = ⟨t10, false, range, false⟩ := by
  have herror := two_mul_abs_tempTermError_lt hlow hhigh
  have hd : 0 < aQ - tempTerm t10 := lt_of_le_of_lt (by positivity) herror
  have hq : rdiv (b10 * tempTerm t10) (aQ - tempTerm t10) = t10 :=
    rdiv_eq_of_near hd (by rwa [b10_mul_tempTerm_sub, abs_neg])
  rw [fromGamma_of_pos hd, hq, saturate, if_neg (by omega), if_neg (by omega)]

/-- A dew point whose logarithm is C at 1000 gives T10 there (44_dewpoint.md R202). -/
theorem dewPoint_1000 {log2 : Nat → Nat} {c t10 : Int} (hlog : (log2 1000 : Int) = c) (hlow : -2376 ≤ t10)
    (hhigh : t10 ≤ 32767) : dewPoint log2 c t10 1000 = ⟨t10, false, outOfRange t10 1000, false⟩ := by
  rw [dewPoint_of_domain (by decide) ((b10_add_pos_iff t10).mpr hlow), hlog, Int.sub_self, gammaQ16_zero,
    fromGamma_tempTerm hlow hhigh]

theorem magnusTd10_1000 {t10 : Int} (hlow : -2376 ≤ t10) : magnusTd10 t10 1000 = (t10 : ℝ) := by
  have hdomain : 0 < magnusB + (t10 : ℝ) / 10 := by
    have hcast : (-2376 : ℝ) ≤ t10 := by exact_mod_cast hlow
    rw [magnusB]
    linarith
  have hrh : ((1000 : ℕ) : ℝ) / 10 = 100 := by norm_num
  rw [magnusTd10, hrh, magnusTd_saturated hdomain]
  ring

/-- Settles O45: at H10 = 1000 either logarithm is its C, and the rounding removes the truncation's error. -/
theorem airSaturationGivesTheTemperature : Obligations.AirSaturationGivesTheTemperature := by
  intro t10 hlow hhigh
  have hprecise : preciseDp t10 1000 = _ := dewPoint_1000 log2PreciseQ20_1000 hlow hhigh
  have hfast : fastDp t10 1000 = _ := dewPoint_1000 log2FastQ20_1000 hlow hhigh
  rw [hprecise, hfast]
  exact ⟨rfl, rfl, rfl, rfl, magnusTd10_1000 hlow⟩

/-! ## The worked example -/

/-- Settles O43: every intermediate is evaluated. -/
theorem dewPointWorkedExample : Obligations.DewPointWorkedExample := by
  unfold Obligations.DewPointWorkedExample
  decide

/-! ## The deviation of the fast mode -/

/-- ln(H10 / 1000) in Q16 as the precise mode has it (44_dewpoint.md R197). -/
def lnPrecise (h10 : Nat) : Int := lnQ16 ((log2PreciseQ20 h10 : Int) - cP)

/-- ln(H10 / 1000) in Q16 as the fast mode has it (44_dewpoint.md R197). -/
def lnFast (h10 : Nat) : Int := lnQ16 ((log2FastQ20 h10 : Int) - cF)

/-- Two results differ by at most 10 tenths where A_Q · B10 · |g − g'| < 10 · d · d', which says that the exact
quotients differ by less: rounding then adds at most 1, and saturation nothing. -/
theorem fromGamma_td_sub_le {g g' : Int} (hd : 0 < aQ - g) (hd' : 0 < aQ - g')
    (hclose : aQ * b10 * |g - g'| < 10 * ((aQ - g) * (aQ - g'))) (range : Bool) :
    (fromGamma g range).td - (fromGamma g' range).td ≤ 10 := by
  have hquotients : rdiv (b10 * g) (aQ - g) - rdiv (b10 * g') (aQ - g') ≤ 10 := by
    obtain ⟨-, hhigh⟩ := rdiv_gamma_nearest hd
    obtain ⟨hlow, -⟩ := rdiv_gamma_nearest hd'
    have hgap : aQ * b10 * (g - g') ≤ aQ * b10 * |g - g'| :=
      Int.mul_le_mul_of_nonneg_left (le_abs_self _) (by decide)
    generalize rdiv (b10 * g) (aQ - g) = q at *
    generalize rdiv (b10 * g') (aQ - g') = q' at *
    have hhigh' := Int.mul_le_mul_of_nonneg_right hhigh hd'.le
    have hlow' := Int.mul_le_mul_of_nonneg_right hlow hd.le
    by_contra hq
    have hfar : 11 * ((aQ - g) * (aQ - g')) ≤ (q - q') * ((aQ - g) * (aQ - g')) :=
      Int.mul_le_mul_of_nonneg_right (by omega) (by positivity)
    have hpos := mul_pos hd hd'
    linarith
  rw [fromGamma_of_pos hd, fromGamma_of_pos hd', saturate_td, saturate_td]
  omega

/-- In the rated range the temperature term is largest at the warmest temperature. -/
theorem tempTerm_le_of_rated {t10 : Int} (hlow : 0 ≤ t10) (hhigh : t10 ≤ 500) : tempTerm t10 ≤ tempTerm 500 := by
  have hwarmest : tempTerm 500 = 196699 := by decide
  have hquotient : aQ * t10 / (b10 + t10) < 196700 :=
    Int.ediv_lt_of_lt_mul ((b10_add_pos_iff t10).mpr (by omega)) (by rw [aQ, b10]; omega)
  rw [hwarmest, tempTerm, tdiv_eq, Int.tdiv_eq_ediv_of_nonneg (by rw [aQ]; omega)]
  omega

/-- The least d of the rated temperatures, by the logarithm of the humidity. -/
def leastD (ln : Int) : Int := aQ - (ln + tempTerm 500)

theorem leastD_le {ln t10 : Int} (hlow : 0 ≤ t10) (hhigh : t10 ≤ 500) : leastD ln ≤ aQ - (ln + tempTerm t10) := by
  have hterm := tempTerm_le_of_rated hlow hhigh
  rw [leastD]
  omega

/-- The logarithms of the two modes are so close that the results differ by at most 10 tenths at the warmest rated
temperature, where d is least. -/
abbrev LogsClose (ln ln' : Int) : Prop :=
  0 < leastD ln ∧ 0 < leastD ln' ∧ aQ * b10 * |ln - ln'| < 10 * (leastD ln * leastD ln')

theorem LogsClose.symm {ln ln' : Int} (h : LogsClose ln ln') : LogsClose ln' ln := by
  obtain ⟨hd, hd', hclose⟩ := h
  exact ⟨hd', hd, by rwa [abs_sub_comm, Int.mul_comm (leastD ln')]⟩

/-- Logarithms close enough for the warmest rated temperature are close enough for every rated temperature: the term
cancels in γ − γ', and d only grows. -/
theorem LogsClose.td_sub_le {ln ln' t10 : Int} (h : LogsClose ln ln') (hlow : 0 ≤ t10) (hhigh : t10 ≤ 500)
    (range : Bool) : (fromGamma (ln + tempTerm t10) range).td - (fromGamma (ln' + tempTerm t10) range).td ≤ 10 := by
  obtain ⟨hpos, hpos', hclose⟩ := h
  have hd := leastD_le (ln := ln) hlow hhigh
  have hd' := leastD_le (ln := ln') hlow hhigh
  refine fromGamma_td_sub_le (hpos.trans_le hd) (hpos'.trans_le hd') ?_ range
  rw [add_sub_add_right_eq_sub]
  exact hclose.trans_le (Int.mul_le_mul_of_nonneg_left (mul_le_mul hd hd' hpos'.le (hpos.trans_le hd).le) (by decide))

/-- The humidities of the rated range in rows of 26, each evaluated: how far the interpolation stays below the logarithm
is a matter of each single H10 (44_dewpoint.md R212). -/
theorem logsClose_rows : ∀ row < 27, ∀ i < 26,
    LogsClose (lnPrecise (200 + 26 * row + i)) (lnFast (200 + 26 * row + i)) := by decide

theorem logsClose_of_rated {h10 : Nat} (hlow : 200 ≤ h10) (hhigh : h10 ≤ 900) :
    LogsClose (lnPrecise h10) (lnFast h10) := by
  have hrow := logsClose_rows ((h10 - 200) / 26) (by omega) ((h10 - 200) % 26) (by omega)
  rwa [show 200 + 26 * ((h10 - 200) / 26) + (h10 - 200) % 26 = h10 by omega] at hrow

/-- Settles O49: for every rated humidity the logarithms are evaluated and found close enough for the warmest rated
temperature, so that they are for every rated one. -/
theorem fastDeviatesByAtMostOneDegree : Obligations.FastDeviatesByAtMostOneDegree := by
  refine ⟨fun t10 h10 ht0 ht hh0 hh => ?_, by decide, by decide⟩
  have hclose := logsClose_of_rated hh0 hh
  have hh10 : h10 ≠ 0 := by omega
  have hdomain : 0 < b10 + t10 := (b10_add_pos_iff t10).mpr (by omega)
  rw [preciseDp, fastDp, dewPoint_of_domain hh10 hdomain, dewPoint_of_domain hh10 hdomain]
  exact ⟨hclose.td_sub_le ht0 ht _, hclose.symm.td_sub_le ht0 ht _⟩

/-! ## The countdown -/

/-- A run from the state meets no reset and no narrower access, so that it never stops. -/
structure Undisturbed (s : State) : Prop where
  running : running s
  noReset : noReset s
  hostOk : hostOk s

theorem Undisturbed.exists_step {s : State} (h : Undisturbed s) : ∃ t, step s = .next t ∧ Undisturbed t := by
  obtain ⟨t, hstep⟩ := step_next_of_running h.running h.hostOk
  have hreset := noReset_step h.noReset hstep
  exact ⟨t, hstep, ⟨rstNow_of_noReset hreset, wasReset_step hstep⟩, hreset, hostOk_step h.hostOk hstep⟩

theorem dpCompletes_of_last {s : State} (hbusy : s.dp.busy = true) (hcnt : s.dp.cnt = 1) : dpCompletes s = true := by
  simp [dpCompletes, hbusy, hcnt]

/-- A running step in which a computation completes sets DP_DONE, whatever the host clears (44_dewpoint.md R215). -/
theorem step_sets_dpDone {s t : State} (hr : running s) (hstep : step s = .next t) (hdone : dpCompletes s = true) :
    t.hif.intPend.getLsbD 1 = true := by
  obtain ⟨hrst, -⟩ | ⟨-, op, s1, -, -, -, rfl⟩ := step_next_cases hstep
  · exact absurd (hr.1.symm.trans hrst) Bool.false_ne_true
  · rw [advance_hif, HostIf.raise_intPend, dpAfter_done, hdone, doneSet_dpDone]

/-- The dew-point unit with k cycles of its countdown gone (44_dewpoint.md R214). -/
def DpUnit.after (d : DpUnit) (k : Nat) : DpUnit := { d with cnt := d.cnt - BitVec.ofNat 8 k }

/-- The dew-point unit when its countdown has ended (44_dewpoint.md R215). -/
def DpUnit.finished (d : DpUnit) : DpUnit :=
  { d with
    busy := false, cnt := 0#8, td10 := BitVec.ofInt 16 (dpResult d.modeL d.op).td,
    domain := (dpResult d.modeL d.op).domain, range := (dpResult d.modeL d.op).range,
    sat := (dpResult d.modeL d.op).sat, mode := d.modeL, done := true }

/-- The last cycle of the countdown. -/
theorem dpStep_of_last {d : DpUnit} (hcnt : d.cnt = 1) : (dpStep d).1 = d.finished := by
  obtain ⟨hne, -⟩ | ⟨-, e⟩ := dpStep_cases d
  · exact absurd hcnt hne
  · rw [e]; rfl

/-- A cycle of the countdown before the last. -/
theorem dpStep_of_not_last {d : DpUnit} (hcnt : d.cnt ≠ 1) : (dpStep d).1 = d.after 1 := by
  obtain ⟨-, e⟩ | ⟨heq, -⟩ := dpStep_cases d
  · rw [e]; rfl
  · exact absurd heq hcnt

theorem DpUnit.after_after (d : DpUnit) (j k : Nat) : (d.after j).after k = d.after (j + k) := by
  simp only [DpUnit.after, BitVec.ofNat_add, BitVec.sub_sub]

/-- The unit after k cycles, short of the last one (44_dewpoint.md R214). -/
theorem run_counts_down {k : Nat} {s : State} (h : Undisturbed s) (hbusy : s.dp.busy = true)
    (hk : k < s.dp.cnt.toNat) :
    ∃ u, Host.Core.run Sys2Proof.core k s = .next u ∧ Undisturbed u ∧ u.dp = s.dp.after k := by
  induction k generalizing s with
  | zero => exact ⟨s, rfl, h, by simp [DpUnit.after]⟩
  | succ k ih =>
    obtain ⟨t, hstep, ht⟩ := h.exists_step
    have hnotlast : s.dp.cnt ≠ 1 := by bv_omega
    have hdp : t.dp = s.dp.after 1 := (step_of_dpBusy h.running hbusy hstep).trans (dpStep_of_not_last hnotlast)
    have hleft : k < t.dp.cnt.toNat := by rw [hdp, DpUnit.after]; bv_omega
    obtain ⟨u, hrun, hu, hudp⟩ := ih ht (by rw [hdp]; exact hbusy) hleft
    refine ⟨u, (run_succ_of_step hstep).trans hrun, hu, ?_⟩
    rw [hudp, hdp, DpUnit.after_after, Nat.add_comm]

/-- The last step of a run. -/
theorem run_succ_of_last {k : Nat} {s u t : State} (hrun : Host.Core.run Sys2Proof.core k s = .next u)
    (hstep : step u = .next t) : Host.Core.run Sys2Proof.core (k + 1) s = .next t := by
  induction k generalizing s with
  | zero =>
    cases hrun
    exact run_succ_of_step hstep
  | succ k ih =>
    cases hs : step s with
    | next s' =>
      rw [run_succ_of_step hs] at hrun ⊢
      exact ih hrun
    | fault f => simp [Host.Core.run, show Sys2Proof.core.step s = .fault f from hs] at hrun
    | refused r => simp [Host.Core.run, show Sys2Proof.core.step s = .refused r from hs] at hrun

/-- Settles O50: DP_CNT − 1 cycles count down, and the next one completes. -/
theorem dewPointCompletesAfterItsLatency : Obligations.DewPointCompletesAfterItsLatency := by
  intro s hinv hr hreset hok hbusy
  have hs : Undisturbed s := ⟨hr, hreset, hok⟩
  refine ⟨fun k hk => ?_, ?_⟩
  · obtain ⟨u, hrun, -, hdp⟩ := run_counts_down hs hbusy hk
    exact ⟨u, hrun, hdp⟩
  · have hcnt : s.dp.cnt ≠ 0 := hinv.busy.mp hbusy
    obtain ⟨k, hk⟩ : ∃ k, s.dp.cnt.toNat = k + 1 := Nat.exists_eq_succ_of_ne_zero (by bv_omega)
    obtain ⟨u, hrun, hu, hdp⟩ := run_counts_down hs hbusy (k := k) (by omega)
    obtain ⟨t, hstep, -⟩ := hu.exists_step
    have hubusy : u.dp.busy = true := by rw [hdp]; exact hbusy
    have hlast : u.dp.cnt = 1 := by rw [hdp, DpUnit.after]; bv_omega
    refine ⟨t, ?_, ?_, step_sets_dpDone hu.running hstep (dpCompletes_of_last hubusy hlast)⟩
    · rw [hk]
      exact run_succ_of_last hrun hstep
    · rw [step_of_dpBusy hu.running hubusy hstep, dpStep_of_last hlast, hdp]
      rfl

end Sys2Proof.Machine
end

section
/-! PROOFS. The exceptions family: the cause of a host error (60_exceptions.md R236, R237), irq (R240), refusals in the
cycle of a completion (R244), the idle block (R255) and the answers of a step (R256). -/

namespace Sys2Proof.Machine

/-! ## The cause of a host error -/

/-- Settles O20: only the host operation of the cycle writes the cause, and `hostStep_interrupts` says which. -/
theorem hostErrorCauseFollowsTheTable : Obligations.HostErrorCauseFollowsTheTable := by
  intro s t op hr hop hstep
  obtain ⟨s1, h1, -, rfl⟩ := step_running hr hop hstep
  obtain ⟨hcause, -⟩ := hostStep_interrupts h1
  rw [advance_hif, HostIf.raise_cause, hcause]

/-! ## Refusals -/

/-- A running step whose host operation is refused records the cause of the refusal, whatever the units do in it. -/
theorem step_cause_of_refused {s t : State} {op : HostOp} {c : Cause} (hr : running s)
    (hrefused : hostStep s op = .next (hostError c s)) (hstep : step s = .next t)
    (hop : hostNext s.env.program = some op) : t.hif.cause = c := by
  cases (step_of_host hr hop hrefused).symm.trans hstep
  rfl

theorem hostStep_read_of_busy {s : State} (hbusy : s.rd.phase ≠ .idle) :
    hostStep s (.wr (offsetOf .cmd) (encode .read)) = .next (hostError .busy s) := by
  rw [hostStep_read, startRead_of_busy hbusy]

theorem hostStep_timing_of_busy {s : State} (hbusy : s.rd.phase ≠ .idle) (k : TimingReg) (data : Word) :
    hostStep s (.wr (offsetOf (.timing k)) data) = .next (hostError .locked s) := by
  rw [hostStep_timing, writeTiming_of_busy hbusy]

theorem hostStep_dp_of_busy {s : State} (hbusy : s.dp.busy = true) {i : Instr} (hi : i = .dpPrecise ∨ i = .dpFast) :
    hostStep s (.wr (offsetOf .cmd) (encode i)) = .next (hostError .busy s) := by
  obtain ⟨m, hexec⟩ := exec_dp hi s
  rw [hostStep_cmd, command_encode, hexec, startDp_of_busy hbusy]

theorem hostStep_dpIn_of_busy {s : State} (hbusy : s.dp.busy = true) (data : Word) :
    hostStep s (.wr 0x4C#8 data) = .next (hostError .locked s) := by
  rw [hostStep_dpIn, writeDpIn_of_busy hbusy]

/-- Settles O21: the pre-state is busy, so the operation is refused and the locked registers stay; that the unit is idle
in the next state plays no part. -/
theorem completionInTheSameCycleDoesNotHelp : Obligations.CompletionInTheSameCycleDoesNotHelp := by
  refine fun s t data hr hstep => ⟨fun hbusy _ => ⟨?read, fun k hop => ⟨?timing, ?timingKept⟩⟩,
    fun hbusy _ => ⟨?precise, ?fast, fun hop => ⟨?dpIn, ?dpInKept⟩⟩⟩
  case read => exact step_cause_of_refused hr (hostStep_read_of_busy hbusy) hstep
  case timing => exact step_cause_of_refused hr (hostStep_timing_of_busy hbusy k data) hstep hop
  case timingKept => exact (step_of_rdBusy hr hbusy hstep).2
  case precise => exact step_cause_of_refused hr (hostStep_dp_of_busy hbusy (.inl rfl)) hstep
  case fast => exact step_cause_of_refused hr (hostStep_dp_of_busy hbusy (.inr rfl)) hstep
  case dpIn => exact step_cause_of_refused hr (hostStep_dpIn_of_busy hbusy data) hstep hop
  case dpInKept => rw [step_of_dpBusy hr hbusy hstep, dpStep_dpIn]

/-! ## irq -/

/-- A vector is not 0 exactly when one of its bits is 1. -/
theorem ne_zero_iff_exists_getLsbD {w : Nat} (x : BitVec w) : x ≠ 0#w ↔ ∃ k < w, x.getLsbD k = true := by
  rw [ne_eq, BitVec.eq_of_getLsbD_eq_iff]
  simp

/-- Settles O22: a bit of INT_PEND AND INT_EN is 1 where both have it. -/
theorem irqIsAnEnabledPendingSource : Obligations.IrqIsAnEnabledPendingSource := by
  intro h
  calc irq h = true
    _ ↔ h.intPend &&& h.intEn ≠ 0#3 := decide_eq_true_iff
    _ ↔ ∃ k < 3, (h.intPend &&& h.intEn).getLsbD k = true := ne_zero_iff_exists_getLsbD _
    _ ↔ ∃ k < 3, h.intPend.getLsbD k = true ∧ h.intEn.getLsbD k = true := by
      simp only [BitVec.getLsbD_and, Bool.and_eq_true]

/-! ## The answers of a step -/

/-- Before the first reset no rule applies (70_reset_and_hazards.md R270). -/
theorem step_before_reset {s : State} (hrst : rstNow s.env = false) (hwas : s.env.wasReset = false) :
    step s = .fault .beforeFirstReset := by
  simp only [step, cycle, hrst, hwas, Bool.false_eq_true, if_false]

/-- The bus has no narrower access (20_memory.md R62). -/
theorem step_of_narrow {s : State} (hr : running s) (hnone : hostNext s.env.program = none) :
    step s = .refused .narrowAccess := by
  simp only [step, cycle, hr.1, hr.2, hnone, Bool.false_eq_true, if_false, if_true]

/-- Settles O53: by RST, by whether there was a reset, and by the host's access, one of `step_of_reset`,
`step_before_reset`, `step_of_narrow` and `step_of_host` gives the answer. -/
theorem noHang : Obligations.NoHang := by
  intro s
  cases hrst : rstNow s.env with
  | true => simp [step_of_reset hrst, running, hrst]
  | false =>
    cases hwas : s.env.wasReset with
    | false => simp [step_before_reset hrst hwas, running, hwas]
    | true =>
      have hr : running s := ⟨hrst, hwas⟩
      cases hop : hostNext s.env.program with
      | none => simp [step_of_narrow hr hop, hr]
      | some op =>
        obtain ⟨s1, h1, -⟩ := hostStep_effect s op
        simp [step_of_host hr hop h1]

/-! ## The idle block -/

/-- Where no unit completes, nothing is raised. -/
theorem HostIf.raise_nothing (h : HostIf) : h.raise (doneSet false false) = h := by
  simp [HostIf.raise, doneSet]

/-- Settles O55: without a host operation the units advance from the pre-state, and neither of them is busy. -/
theorem idleBlockChangesOnlyCounters : Obligations.IdleBlockChangesOnlyCounters := by
  intro s t hr hrd hdp hop hstep
  have hread : readAfter s s = (s.rd, false) := readAfter_of_not_decoderSteps (decoderSteps_eq_false (.inl hrd)) s
  have hdew : dpAfter s s = (s.dp, false) := dpAfter_of_idle hdp s
  cases (step_of_host hr hop rfl).symm.trans hstep
  simp only [advance, hread, hdew, HostIf.raise_nothing]

end Sys2Proof.Machine
end

section
/-! PROOFS. The reset and hazards family: a cycle with RST (70_reset_and_hazards.md R270), the durations of the phases
in ticks (R286), and the bound of a transaction (R287). -/

namespace Sys2Proof.Machine

/-! ## Reset -/

/-- The reply of a reset cycle (70_reset_and_hazards.md R270). -/
theorem resetCycle_busOut {s : State} {op : HostOp} (hop : hostNext s.env.program = some op) :
    (resetCycle s).env.busOut = busReplyInReset op := by
  rw [resetCycle_env, nextEnv_busOut, hop, Option.getD_some]

/-- Settles O52: a reset cycle starts from the reset values, and its reply does not look at the state. -/
theorem resetFromAnyState : Obligations.ResetFromAnyState := fun s hrst =>
  ⟨resetCycle s, step_of_reset hrst, rfl, rfl, rfl, rfl, rfl, rfl, rfl, rfl,
    fun _ hop => resetCycle_busOut hop, fun _ _ hop => resetCycle_busOut hop⟩

/-! ## The durations of the phases in ticks -/

/-- The most ticks a transaction spends in a phase (70_reset_and_hazards.md R286). -/
def phaseTicks (tm : Timing) : Phase → Nat
  | .idle => 0
  | .check => 1
  | .stab => max tm.tStab.toNat 1
  | .start => max tm.tStart.toNat 1
  | .wPres => tm.toPres.toNat + 1
  | .wSyncL => tm.toSyncL.toNat + 1
  | .wSyncH => tm.toSyncH.toNat + 1
  | .bLow => tm.toBitL.toNat + 1
  | .bSample => max tm.tSample.toNat 1
  | .bHigh => tm.toBitH.toNat + 1

/-- The most ticks of one bit (70_reset_and_hazards.md R286). -/
def bitTicks (tm : Timing) : Nat := phaseTicks tm .bLow + phaseTicks tm .bSample + phaseTicks tm .bHigh

/-- The phases still to come before the next bit begins or the transaction ends (42_frame_decoder.md R140). -/
def phasesAhead : Phase → List Phase
  | .check => [.stab, .start, .wPres, .wSyncL, .wSyncH]
  | .stab => [.start, .wPres, .wSyncL, .wSyncH]
  | .start => [.wPres, .wSyncL, .wSyncH]
  | .wPres => [.wSyncL, .wSyncH]
  | .wSyncL => [.wSyncH]
  | .bLow => [.bSample, .bHigh]
  | .bSample => [.bHigh]
  | .idle | .wSyncH | .bHigh => []

/-- The bits that have yet to begin, with `n` captured (42_frame_decoder.md R140). -/
def bitsAhead (p : Phase) (n : Nat) : Nat :=
  match p with
  | .idle => 0
  | .bLow | .bSample => 39 - n
  | .check | .stab | .start | .wPres | .wSyncL | .wSyncH | .bHigh => 40 - n

/-- The most ticks a transaction goes on after it has left a phase. -/
def ticksAhead (tm : Timing) (p : Phase) (n : Nat) : Nat :=
  ((phasesAhead p).map (phaseTicks tm)).sum + bitsAhead p n * bitTicks tm

/-- The most ticks a transaction still takes. -/
def ticksLeft (tm : Timing) (r : ReadUnit) : Nat :=
  phaseTicks tm r.phase - r.cnt.toNat + ticksAhead tm r.phase r.bitcnt.toNat

theorem ticksLeft_of_idle {r : ReadUnit} (hp : r.phase = .idle) (tm : Timing) : ticksLeft tm r = 0 := by
  simp [ticksLeft, ticksAhead, hp, phaseTicks, phasesAhead, bitsAhead]

/-- The invariant's bound on CNT is the duration of the phase (70_reset_and_hazards.md R286). -/
theorem cnt_lt_phaseTicks {tm : Timing} {p : Phase} {cnt : Nat} (hp : p ≠ .idle) (h : cntFits tm p cnt = true) :
    cnt < phaseTicks tm p := by
  cases p with
  | idle => exact absurd rfl hp
  | _ =>
    simp only [cntFits, beq_iff_eq, decide_eq_true_eq] at h
    simp only [phaseTicks]
    omega

/-- The first phase of a bit takes that bit's ticks out of the bits ahead. -/
theorem ticksAhead_bLow (tm : Timing) {n : Nat} (hn : n < 40) :
    (40 - n) * bitTicks tm = phaseTicks tm .bLow + ticksAhead tm .bLow n := by
  rw [show 40 - n = (39 - n) + 1 by omega, Nat.succ_mul]
  simp only [ticksAhead, phasesAhead, bitsAhead, bitTicks, List.map_cons, List.map_nil, List.sum_cons, List.sum_nil]
  omega

/-- The sampled bit is no longer ahead. -/
theorem ticksAhead_bSample (tm : Timing) (n : Nat) :
    ticksAhead tm .bSample n = phaseTicks tm .bHigh + ticksAhead tm .bHigh (n + 1) := by
  simp [ticksAhead, phasesAhead, bitsAhead]

/-- Entering a phase takes its ticks out of the ticks ahead. -/
theorem Enters.ticksAhead_eq {r : ReadUnit} {p : Phase} (h : Enters r p)
    (hbits : Machine.bitsFit r.phase r.bitcnt.toNat = true) (tm : Timing) :
    ticksAhead tm r.phase r.bitcnt.toNat = phaseTicks tm p + ticksAhead tm p r.bitcnt.toNat := by
  have hn := h.bitsFit hbits
  cases h with
  | bLow hp | nextBit hp _ =>
    rw [← ticksAhead_bLow tm (of_decide_eq_true hn), hp]
    exact Nat.zero_add _
  | _ hp => rw [hp]; exact Nat.add_assoc ..

/-- Every tick of a running transaction takes at least one of the ticks left: counting moves CNT, entering a phase gives
up the rest of the old one, and a completion leaves none. -/
theorem ticksLeft_frameStep_lt {tm : Timing} {r : ReadUnit} (h : ReadInv tm r) (hp : r.phase ≠ .idle) (line : Bool) :
    ticksLeft tm (frameStep tm r line).1 < ticksLeft tm r := by
  have hcnt := cnt_lt_phaseTicks hp h.cnt
  have heffect := frameStep_effect tm r line hp
  generalize frameStep tm r line = result at heffect
  cases heffect with
  | count hwaits =>
    simp only [ticksLeft, stay_phase, stay_cnt, stay_bitcnt, hwaits.cnt_succ]
    omega
  | next p henters =>
    simp only [ticksLeft, enter_phase, enter_cnt, enter_bitcnt, henters.ticksAhead_eq h.bits tm]
    omega
  | sample hsample _ =>
    have hb : r.bitcnt.toNat < 40 := by simpa [hsample, bitsFit] using h.bits
    have hsucc : (r.bitcnt + 1).toNat = r.bitcnt.toNat + 1 := by bv_omega
    rw [hsample] at hcnt
    simp only [ticksLeft, enter_phase, enter_cnt, enter_bitcnt, hsample, hsucc,
      ticksAhead_bSample]
    omega
  | fail c _ =>
    rw [ticksLeft_of_idle (complete_phase c r), ticksLeft]
    omega
  | finish _ _ _ =>
    rw [ticksLeft_of_idle (finishFrame_phase r), ticksLeft]
    omega

/-- N_max is the duration of the whole transaction (70_reset_and_hazards.md R287). -/
theorem ticksLeft_le_nMax {r : ReadUnit} (hp : r.phase = .check) (tm : Timing) : ticksLeft tm r ≤ nMax tm := by
  have hbits : (40 - r.bitcnt.toNat) * bitTicks tm ≤ 40 * bitTicks tm := Nat.mul_le_mul_right _ (Nat.sub_le ..)
  simp only [ticksLeft, ticksAhead, hp, phasesAhead, bitsAhead, List.map_cons, List.map_nil, List.sum_cons,
    List.sum_nil, nMax]
  simp only [bitTicks, phaseTicks] at hbits ⊢
  omega

/-! ## The duration of a transaction in cycles -/

/-- The most cycles a transaction still takes: TICK_DIV + 1 for each tick left, less what PRESC has counted of the first
(41_pulse_timer_edge_waiter.md R120). -/
def cyclesLeft (s : State) : Nat :=
  ticksLeft s.timing s.rd * (s.timing.tickDiv.toNat + 1) - min s.timer.presc.toNat s.timing.tickDiv.toNat

/-- Every cycle of a running transaction takes at least one of the cycles left: below TICK_DIV, PRESC counts, and a tick
takes one of the ticks left. -/
theorem cyclesLeft_step_lt {s t : State} (h : ReadInv s.timing s.rd) (hr : running s) (hp : s.rd.phase ≠ .idle)
    (hstep : step s = .next t) : cyclesLeft t < cyclesLeft s := by
  have htiming : t.timing = s.timing := (step_of_rdBusy hr hp hstep).2
  have hdrop : ticksLeft s.timing (frameStep s.timing s.rd (lineNow s.env)).1 < ticksLeft s.timing s.rd :=
    ticksLeft_frameStep_lt h hp _
  have hticks := Nat.mul_le_mul_right (s.timing.tickDiv.toNat + 1) (Nat.succ_le_of_lt hdrop)
  rw [Nat.succ_mul] at hticks
  obtain ⟨hkeeps, hmoves, -⟩ := readUnitMovesOnlyByTickOrRead s t hr hstep
  obtain ⟨hreload, hcount, -⟩ := pulseTimerStep s t hr hstep
  simp only [cyclesLeft, htiming]
  obtain hbelow | htick := Nat.lt_or_ge s.timer.presc.toNat s.timing.tickDiv.toNat
  · rw [hkeeps hp hbelow, (hcount hbelow).1]
    omega
  · rw [hmoves hp htick, (hreload htick).1, decoderTicks, decoderTicks, BitVec.toNat_zero]
    omega

/-- A transaction running in `s` completes with the n-th cycle, which leads to `t` (70_reset_and_hazards.md R287). -/
def CompletesAfter (n : Nat) (s t : State) : Prop :=
  Host.Core.run Sys2Proof.core n s = .next t ∧ t.rd.phase = .idle ∧ t.rd.lastCode ≠ .none ∧
    t.hif.intPend.getLsbD 0 = true ∧ ∀ k < n, ∃ u, Host.Core.run Sys2Proof.core k s = .next u ∧ u.rd.phase ≠ .idle

/-- The completing cycle, with its record (60_exceptions.md R231). -/
theorem completesAfter_one {s t : State} (h : ReadInv s.timing s.rd) (hr : running s) (hp : s.rd.phase ≠ .idle)
    (hstep : step s = .next t) (hidle : t.rd.phase = .idle) : CompletesAfter 1 s t := by
  obtain ⟨-, -, -, -, -, hpend, hcode, -⟩ := (completionRecordIsPrecise s t h hr hstep).1 hp hidle
  refine ⟨run_succ_of_step hstep, hidle, hcode, hpend, fun k hk => ?_⟩
  obtain rfl := Nat.lt_one_iff.mp hk
  exact ⟨s, rfl, hp⟩

/-- A cycle in front of the completion. -/
theorem CompletesAfter.of_step {n : Nat} {s t u : State} (h : CompletesAfter n t u) (hp : s.rd.phase ≠ .idle)
    (hstep : step s = .next t) : CompletesAfter (n + 1) s u := by
  obtain ⟨hrun, hidle, hcode, hpend, hbusy⟩ := h
  refine ⟨(run_succ_of_step hstep).trans hrun, hidle, hcode, hpend, fun k hk => ?_⟩
  cases k with
  | zero => exact ⟨s, rfl, hp⟩
  | succ k =>
    rw [run_succ_of_step hstep]
    exact hbusy k (Nat.lt_of_succ_lt_succ hk)

/-- A running transaction completes within the cycles left, on every line and with every host
(70_reset_and_hazards.md R287). -/
theorem exists_completesAfter {s : State} (hinv : Inv s) (h : Undisturbed s) (hp : s.rd.phase ≠ .idle) :
    ∃ n t, 1 ≤ n ∧ n ≤ cyclesLeft s ∧ CompletesAfter n s t := by
  induction hc : cyclesLeft s using Nat.strong_induction_on generalizing s with
  | _ c ih =>
    subst hc
    obtain ⟨t, hstep, ht⟩ := h.exists_step
    have hdrop := cyclesLeft_step_lt hinv.read h.running hp hstep
    by_cases hidle : t.rd.phase = .idle
    · exact ⟨1, t, Nat.le_refl 1, by omega, completesAfter_one hinv.read h.running hp hstep hidle⟩
    · obtain ⟨n, u, -, hle, hcompletes⟩ :=
        ih _ hdrop (everyStepKeepsTheInvariant s t hinv hstep) ht hidle rfl
      exact ⟨n + 1, u, by omega, by omega, hcompletes.of_step hp hstep⟩

/-- Settles O60: a transaction in CHECK has at most N_max ticks left, each of at most TICK_DIV + 1 cycles. -/
theorem transactionEndsWithinItsBound : Obligations.TransactionEndsWithinItsBound := by
  intro s hinv hr hreset hok hp
  obtain ⟨n, t, hpos, hle, hcompletes⟩ := exists_completesAfter hinv ⟨hr, hreset, hok⟩ (by rw [hp]; decide)
  refine ⟨n, t, hpos, ?_, hcompletes⟩
  calc n ≤ cyclesLeft s := hle
    _ ≤ ticksLeft s.timing s.rd * (s.timing.tickDiv.toNat + 1) := Nat.sub_le ..
    _ ≤ nMax s.timing * (s.timing.tickDiv.toNat + 1) := Nat.mul_le_mul_right _ (ticksLeft_le_nMax hp _)

end Sys2Proof.Machine
end
